-- ==== Sys2Proof/Word.lean ====
section
/-! DEFINITION. The words of the machine: the XLEN-bit word (width a parameter, spec 00_scope.md R2) and the fixed
widths of the instruction fields (00_scope.md section 5: csr 12 bits, register specifiers and uimm 5 bits). -/

namespace Sys2Proof

/-- An XLEN-bit value: the contents of an integer register, of `pc` and of a CSR. -/
abbrev Word (xlen : Nat) := BitVec xlen

/-- The smallest unit of main memory, seen by instruction fetch only. -/
abbrev Byte := BitVec 8

/-- A CSR address: one of 4096 (10_state.md R14). -/
abbrev CsrAddr := BitVec 12

/-- An integer-register specifier: one of 32 (10_state.md R10). -/
abbrev RegNum := BitVec 5

/-- The immediate of the immediate forms, unsigned (30_encoding.md R56). -/
abbrev Uimm := BitVec 5

/-- An instruction word (30_encoding.md R50). -/
abbrev InstrWord := BitVec 32

end Sys2Proof
end

