-- ==== Sys2Proof/Machine/Assoc.lean ====
section
/-! DEFINITION. Finite maps as plain data: a list of (key, value) pairs with strictly rising keys. Main memory and the
cells of the CSR file are such lists; the strictly rising form makes equal maps equal lists. -/

namespace Sys2Proof.Machine.Assoc

variable {α : Type}

/-- The value listed at `key`. -/
def find : List (Nat × α) → Nat → Option α
  | [], _ => none
  | (k, v) :: rest, key => if k = key then some v else find rest key

/-- List `value` at `key`, in place of what is listed there. -/
def insert : List (Nat × α) → Nat → α → List (Nat × α)
  | [], key, value => [(key, value)]
  | (k, v) :: rest, key, value =>
    if key < k then (key, value) :: (k, v) :: rest
    else if k = key then (key, value) :: rest
    else (k, v) :: insert rest key value

/-- List nothing at `key`. -/
def erase (l : List (Nat × α)) (key : Nat) : List (Nat × α) := l.filter fun kv => kv.1 ≠ key

/-- The keys rise strictly. -/
def sorted : List (Nat × α) → Bool
  | [] => true
  | [_] => true
  | (k, _) :: (k', v') :: rest => k < k' && sorted ((k', v') :: rest)

end Sys2Proof.Machine.Assoc
end

