-- ==== Sys2Proof/Config.lean ====
section
/-! DEFINITION. What an implementation fixes: the spec's parameters (00_scope.md section 4) as PLAIN DATA, one
`Platform` for one hart, and the one free value of the model. A `Platform` is no state: no step changes it. It is
held beside the state so that every statement about a step is made for every platform (log 2). -/

namespace Sys2Proof

/-- FREE VALUE, no body (log 12). What the world outside the hart (other harts, devices, clocks) presents on
`signal` at `moment`: values of timers, pending-interrupt bits, side-effect state changed by other agents
(42_csr_access_rules.md R92, 60_exceptions.md R129). Nothing can be proved about its value. -/
opaque Config.outside (xlen signal moment : Nat) : Word xlen

/-- A bit-vector expression over the state of a CSR file, as data. With it a platform says what the spec leaves to
`CsrFile` (10_state.md R16): when a CSR exists, who may access it, which bits are writable, what a write stores, what
a side effect does, how execution modifies a CSR. As a condition, an expression holds when its value is not zero. -/
inductive CsrExpr (xlen : Nat) where
  /-- A constant. -/
  | lit (v : Word xlen)
  /-- The contents of cell `k` of the CSR file. -/
  | cell (k : Nat)
  /-- The value `v` that an explicit write presents (`CsrFile.write`'s third argument); 0 elsewhere. -/
  | value
  /-- The touched-bit mask `t` of an explicit write (`CsrFile.write`'s fourth argument); 0 elsewhere. -/
  | touched
  /-- The executing instruction's word shifted right by `lo` (`CsrFile.implicit`'s `info`, `TakeTrap`'s `tval`). -/
  | instr (lo : Nat)
  /-- `TakeTrap`'s `epc`; 0 elsewhere. -/
  | epc
  /-- `TakeTrap`'s `cause`; 0 elsewhere. -/
  | cause
  /-- What the outside world presents on `signal` now: a free value. -/
  | outside (signal : Nat)
  | not (a : CsrExpr xlen)
  | and (a b : CsrExpr xlen)
  | or (a b : CsrExpr xlen)
  | add (a b : CsrExpr xlen)
  /-- `a` where `c` is not zero, else `b`. -/
  | ite (c a b : CsrExpr xlen)
deriving DecidableEq, Repr

/-- One assignment of an effect: cell `cell` takes the value of `expr`. -/
structure Assign (xlen : Nat) where
  cell : Nat
  expr : CsrExpr xlen
deriving DecidableEq, Repr

/-- A field of a CSR that has a field-write side effect (42_csr_access_rules.md R79): bits `hi` down to `lo`. -/
structure FieldEffect (xlen : Nat) where
  hi : Nat
  lo : Nat
  effect : List (Assign xlen)
deriving DecidableEq, Repr

/-- One CSR of a platform: the components of `CsrFile` (10_state.md R16) at one address. The defaults are those of a
plain CSR (10_state.md R20). Two addresses may name one cell (a read-only view of a counter). -/
structure CsrDesc (xlen : Nat) where
  addr : CsrAddr
  /-- The cell that holds this CSR's value. -/
  cell : Nat
  /-- The CSR's width in bits; positions at and above it read as zero and ignore writes (R15, D12). -/
  width : Nat
  /-- `CsrFile.peek`, before it is cut to the CSR's width: the cell itself for a CSR whose read value is its stored
  value. It may mix in what the outside world presents (42_csr_access_rules.md R88, 60_exceptions.md R129). -/
  shown : CsrExpr xlen := .cell cell
  /-- `CsrFile.read_only` at this address (00_scope.md R5). -/
  readOnly : Bool := false
  /-- `CsrFile.exists` at this address, as a condition on the CSR state. -/
  present : CsrExpr xlen := .lit 1#xlen
  /-- `CsrFile.priv_ok` at this address, as a condition on the CSR state (00_scope.md R4). -/
  allowed : CsrExpr xlen := .lit 1#xlen
  /-- `CsrFile.read_effect`. -/
  onRead : List (Assign xlen) := []
  /-- `CsrFile.writable`, before it is cut to the CSR's width. -/
  writableBits : CsrExpr xlen := .lit (BitVec.allOnes xlen)
  /-- What a write would store in the writable bits, from the presented value, the touched mask and the state: the
  CSR's legalisation (42_csr_access_rules.md R87, U4). The presented value itself for a plain CSR. -/
  stored : CsrExpr xlen := .value
  /-- The whole-register write side effects, beyond storing. -/
  onWrite : List (Assign xlen) := []
  /-- `CsrFile.fields`, with what each field's side effect does. -/
  fields : List (FieldEffect xlen) := []
deriving DecidableEq, Repr

/-- The parameter `TakeTrap` (00_scope.md R6, log 10). -/
inductive TrapLayer (xlen : Nat) where
  /-- No trap layer: the exception is a terminal fault of the hart. -/
  | terminal
  /-- A trap layer, as data: it records cause, pc and instruction word in cells and sends the hart to `target`. -/
  | handler (saves : List (Assign xlen)) (target : CsrExpr xlen)
deriving DecidableEq, Repr

/-- The parameter `IALIGN` of the base ISA (20_memory.md R33): the alignment of `pc` in bits. -/
inductive Ialign where
  | bits16
  | bits32
deriving DecidableEq, Repr

/-- The parameters of one hart (00_scope.md section 4, but for XLEN, which is the type's own, and `MemoryModel`, log 14). -/
structure Platform (xlen : Nat) where
  /-- The tag of this hart in the history of accesses (20_memory.md R46). -/
  hartId : Nat := 0
  /-- `CsrFile`, address by address: no CSR exists at an address that has no entry. -/
  csrs : List (CsrDesc xlen)
  /-- `CsrFile.implicit`: the assignments that executing any one instruction makes (10_state.md R19). -/
  implicits : List (Assign xlen) := []
  /-- `TakeTrap`. -/
  trap : TrapLayer xlen := .terminal
  /-- `IALIGN`. -/
  ialign : Ialign := .bits32
  /-- `StrongCsr` (00_scope.md R7). -/
  strong : List CsrAddr := []
deriving DecidableEq, Repr

end Sys2Proof
end

