-- ==== Sys2Proof/Machine/Expr.lean ====
section
/-! DEFINITION. What a bit-vector expression over the CSR state looks at. -/

namespace Sys2Proof.Machine

variable {xlen : Nat}

/-- The expression looks at cell `k`. -/
def mentionsCell (k : Nat) : CsrExpr xlen → Bool
  | .lit _ => false
  | .cell j => j == k
  | .value => false
  | .touched => false
  | .instr _ => false
  | .epc => false
  | .cause => false
  | .outside _ => false
  | .not a => mentionsCell k a
  | .and a b => mentionsCell k a || mentionsCell k b
  | .or a b => mentionsCell k a || mentionsCell k b
  | .add a b => mentionsCell k a || mentionsCell k b
  | .ite c a b => mentionsCell k c || mentionsCell k a || mentionsCell k b

/-- The expression looks at the world outside the hart. -/
def looksOutside : CsrExpr xlen → Bool
  | .lit _ => false
  | .cell _ => false
  | .value => false
  | .touched => false
  | .instr _ => false
  | .epc => false
  | .cause => false
  | .outside _ => true
  | .not a => looksOutside a
  | .and a b => looksOutside a || looksOutside b
  | .or a b => looksOutside a || looksOutside b
  | .add a b => looksOutside a || looksOutside b
  | .ite c a b => looksOutside c || looksOutside a || looksOutside b

/-- The expression looks at the touched-bit mask of a write. -/
def looksTouched : CsrExpr xlen → Bool
  | .lit _ => false
  | .cell _ => false
  | .value => false
  | .touched => true
  | .instr _ => false
  | .epc => false
  | .cause => false
  | .outside _ => false
  | .not a => looksTouched a
  | .and a b => looksTouched a || looksTouched b
  | .or a b => looksTouched a || looksTouched b
  | .add a b => looksTouched a || looksTouched b
  | .ite c a b => looksTouched c || looksTouched a || looksTouched b

/-- Each bit of the expression depends, of cell `k`, on the bit of that position alone. -/
def bitwiseIn (k : Nat) : CsrExpr xlen → Bool
  | .lit _ => true
  | .cell _ => true
  | .value => true
  | .touched => true
  | .instr _ => true
  | .epc => true
  | .cause => true
  | .outside _ => true
  | .not a => bitwiseIn k a
  | .and a b => bitwiseIn k a && bitwiseIn k b
  | .or a b => bitwiseIn k a && bitwiseIn k b
  | .add a b => !mentionsCell k a && !mentionsCell k b
  | .ite c a b => !mentionsCell k c && bitwiseIn k a && bitwiseIn k b

/-- Cell `k`, with the bits of `mask` driven by the outside world on `signal`: what a read of a CSR that reflects
pending interrupts returns (60_exceptions.md R129). -/
def drivenFrom (k signal : Nat) (mask : Word xlen) : CsrExpr xlen :=
  .or (.and (.cell k) (.lit (~~~ mask))) (.and (.outside signal) (.lit mask))

end Sys2Proof.Machine
end

