-- ==== Sys2Proof/Syntax.lean ====
section
/-! DEFINITION. The instructions of the extension: the full set of six (00_scope.md R1, 30_encoding.md R59), one
constructor for each row of spec/opcode_table.json, operands in assembler order (30_encoding.md R63), and the seven
assembler pseudo-instructions with their expansions (30_encoding.md R64 to R68). -/

namespace Sys2Proof

/-- One instruction. `rd` and `rs1` stay the specifiers of the instruction word: the field value itself, not only
the register's contents, decides what the instruction does (30_encoding.md R57). -/
inductive Instr where
  /-- CSRRW rd, csr, rs1 (40_csr_register.md R100). -/
  | csrrw (rd : RegNum) (csr : CsrAddr) (rs1 : RegNum)
  /-- CSRRS rd, csr, rs1 (40_csr_register.md R101). -/
  | csrrs (rd : RegNum) (csr : CsrAddr) (rs1 : RegNum)
  /-- CSRRC rd, csr, rs1 (40_csr_register.md R102). -/
  | csrrc (rd : RegNum) (csr : CsrAddr) (rs1 : RegNum)
  /-- CSRRWI rd, csr, uimm (41_csr_immediate.md R110). -/
  | csrrwi (rd : RegNum) (csr : CsrAddr) (uimm : Uimm)
  /-- CSRRSI rd, csr, uimm (41_csr_immediate.md R111). -/
  | csrrsi (rd : RegNum) (csr : CsrAddr) (uimm : Uimm)
  /-- CSRRCI rd, csr, uimm (41_csr_immediate.md R112). -/
  | csrrci (rd : RegNum) (csr : CsrAddr) (uimm : Uimm)
deriving DecidableEq, Repr

/-- The assembler pseudo-instructions: other spellings of the six, with no encoding of their own (30_encoding.md
section 6). -/
inductive Pseudo where
  | csrr (rd : RegNum) (csr : CsrAddr)
  | csrw (csr : CsrAddr) (rs1 : RegNum)
  | csrwi (csr : CsrAddr) (uimm : Uimm)
  | csrs (csr : CsrAddr) (rs1 : RegNum)
  | csrc (csr : CsrAddr) (rs1 : RegNum)
  | csrsi (csr : CsrAddr) (uimm : Uimm)
  | csrci (csr : CsrAddr) (uimm : Uimm)
deriving DecidableEq, Repr

end Sys2Proof
end

