-- ==== Sys2Proof/WellFormed.lean ====
section
/-! DEFINITION. What a well-formed instruction and a well-formed platform are. Every combination of operands is a
well-formed instruction (30_encoding.md R58, R61; the operand types leave no ill-formed term), so all the checks are
the platform's: the conditions under which a `CsrFile` obeys the laws of 10_state.md R16. -/

namespace Sys2Proof

open Machine

/-- Every instruction is well formed, whatever its `csr`, `rs1` or `uimm` and `rd` (30_encoding.md R58). -/
def Instr.wellFormed : Instr → Bool
  | .csrrw _ _ _ => true
  | .csrrs _ _ _ => true
  | .csrrc _ _ _ => true
  | .csrrwi _ _ _ => true
  | .csrrsi _ _ _ => true
  | .csrrci _ _ _ => true

/-- The 5-bit immediate fits an XLEN-bit value (00_scope.md R2). -/
def xlenOk (xlen : Nat) : Bool := 5 ≤ xlen

variable {xlen : Nat}

/-- A CSR is at most XLEN bits wide (10_state.md R15). That it is at least one bit wide is DESIGN CHOICE, safe (log 27):
R15 and R20 give the upper bound only. -/
def CsrDesc.widthOk (d : CsrDesc xlen) : Bool := 1 ≤ d.width && d.width ≤ xlen

/-- The fields with side effects are bit ranges of an XLEN-bit value (10_state.md R16). -/
def CsrDesc.fieldsOk (d : CsrDesc xlen) : Bool := d.fields.all fun f => f.lo ≤ f.hi && f.hi < xlen

/-- A bit of the value read depends, of the CSR's own cell, on that bit alone, so that a bit which is not writable is
not changed by a write (law L-ro, 10_state.md R16). The law is the spec's; this sufficient condition for it is DESIGN
CHOICE, safe (log 28). -/
def CsrDesc.shownOk (d : CsrDesc xlen) : Bool := bitwiseIn d.cell d.shown

/-- An assignment to neither the CSR's own cell nor a cell that its value is read from. -/
def CsrDesc.spares (d : CsrDesc xlen) (a : Assign xlen) : Bool := a.cell ≠ d.cell && !mentionsCell a.cell d.shown

/-- The write side effects and the field side effects act on other state than the CSR's own value, which a write
changes by storing alone, so that law L-ro holds (10_state.md R16). The law is the spec's; this sufficient condition
for it is DESIGN CHOICE, safe (log 28). -/
def CsrDesc.effectsOk (d : CsrDesc xlen) : Bool :=
  d.onWrite.all d.spares && d.fields.all fun f => f.effect.all d.spares

/-- One CSR at an address (10_state.md R14). -/
def Platform.addressesOk (p : Platform xlen) : Bool := decide (p.csrs.map (·.addr)).Nodup

/-- A well-formed platform. -/
def Platform.wellFormed (p : Platform xlen) : Bool :=
  xlenOk xlen && p.addressesOk && p.csrs.all fun d => d.widthOk && d.shownOk && d.fieldsOk && d.effectsOk

/-- A CSR with neither read side effects nor field-write side effects, as every standard CSR is (from a NOTE,
10_state.md R22). -/
def CsrDesc.standardShape (d : CsrDesc xlen) : Bool := d.onRead.isEmpty && d.fields.isEmpty

end Sys2Proof
end

