-- ==== Sys2Proof/Decode.lean ====
section
/-! DEFINITION. From bytes and words to instructions and back (30_encoding.md). The positions of the fields other than
csr and the values of opcode and funct3 are PRESUMED: the spec supplies them from general knowledge (log 5). -/

namespace Sys2Proof

/-- Why a byte sequence is no instruction of this extension. -/
inductive DecodeError where
  /-- Fewer than the four bytes of an instruction (30_encoding.md R50). -/
  | truncated
  /-- The opcode field is not SYSTEM (30_encoding.md R58). -/
  | notSystemOpcode (w : InstrWord)
  /-- funct3 is 000 or 100: under the same opcode, but no CSR instruction (30_encoding.md R60). -/
  | notCsrFunct3 (w : InstrWord)
deriving DecidableEq, Repr

/-- The major opcode SYSTEM (30_encoding.md R55). -/
def systemOpcode : BitVec 7 := 0b1110011#7

/-- `opcode = instr[6:0]` (30_encoding.md R55). -/
def opcodeField (w : InstrWord) : BitVec 7 := w.extractLsb' 0 7

/-- `rd = instr[11:7]` (30_encoding.md R54). -/
def rdField (w : InstrWord) : RegNum := w.extractLsb' 7 5

/-- `funct3 = instr[14:12]` (30_encoding.md R55). -/
def funct3Field (w : InstrWord) : BitVec 3 := w.extractLsb' 12 3

/-- `rs1 = instr[19:15]`, or `uimm`: the same five bits (30_encoding.md R53). -/
def srcField (w : InstrWord) : BitVec 5 := w.extractLsb' 15 5

/-- `csr = instr[31:20]` (30_encoding.md R52). -/
def csrField (w : InstrWord) : CsrAddr := w.extractLsb' 20 12

/-- The decoding procedure of 30_encoding.md R58: the opcode first, then funct3. -/
def decodeWord (w : InstrWord) : Except DecodeError Instr :=
  if opcodeField w ≠ systemOpcode then .error (.notSystemOpcode w)
  else if funct3Field w = 0b001#3 then .ok (.csrrw (rdField w) (csrField w) (srcField w))
  else if funct3Field w = 0b010#3 then .ok (.csrrs (rdField w) (csrField w) (srcField w))
  else if funct3Field w = 0b011#3 then .ok (.csrrc (rdField w) (csrField w) (srcField w))
  else if funct3Field w = 0b101#3 then .ok (.csrrwi (rdField w) (csrField w) (srcField w))
  else if funct3Field w = 0b110#3 then .ok (.csrrsi (rdField w) (csrField w) (srcField w))
  else if funct3Field w = 0b111#3 then .ok (.csrrci (rdField w) (csrField w) (srcField w))
  else .error (.notCsrFunct3 w)

/-- An instruction word from its four bytes, the lowest address first: little-endian (20_memory.md R32). -/
def wordOfBytes (b0 b1 b2 b3 : Byte) : InstrWord := b3 ++ b2 ++ b1 ++ b0

/-- The four bytes of an instruction word, the lowest address first (20_memory.md R32). -/
def bytesOfWord (w : InstrWord) : List Byte :=
  [w.extractLsb' 0 8, w.extractLsb' 8 8, w.extractLsb' 16 8, w.extractLsb' 24 8]

/-- Decode the first instruction of a byte sequence; total, the rest of the sequence comes with it. -/
def decode : List Byte → Except DecodeError (Instr × List Byte)
  | b0 :: b1 :: b2 :: b3 :: rest =>
    match decodeWord (wordOfBytes b0 b1 b2 b3) with
    | .ok i => .ok (i, rest)
    | .error e => .error e
  | _ => .error .truncated

/-- The instruction that the decoder reads from the word whose bits are `w`, of which the table gives `nbits`. -/
def decodeTableWord (nbits w : Nat) : Option Instr :=
  match decode (bytesOfWord (BitVec.ofNat 32 (w % 2 ^ nbits))) with
  | .ok (i, _) => some i
  | .error _ => none

/-- The one format of the extension (30_encoding.md R51): csr, rs1 or uimm, funct3, rd, opcode from bit 31 down. -/
def iTypeWord (csr : CsrAddr) (src : BitVec 5) (funct3 : BitVec 3) (rd : RegNum) : InstrWord :=
  csr ++ src ++ funct3 ++ rd ++ systemOpcode

/-- The word of an instruction, from the table of 30_encoding.md R59. -/
def encode : Instr → InstrWord
  | .csrrw rd csr rs1 => iTypeWord csr rs1 0b001#3 rd
  | .csrrs rd csr rs1 => iTypeWord csr rs1 0b010#3 rd
  | .csrrc rd csr rs1 => iTypeWord csr rs1 0b011#3 rd
  | .csrrwi rd csr uimm => iTypeWord csr uimm 0b101#3 rd
  | .csrrsi rd csr uimm => iTypeWord csr uimm 0b110#3 rd
  | .csrrci rd csr uimm => iTypeWord csr uimm 0b111#3 rd

/-- The table's match value of an instruction's row (30_encoding.md R59, spec/opcode_table.json). -/
def rowMatch : Instr → InstrWord
  | .csrrw _ _ _ => 0x00001073#32
  | .csrrs _ _ _ => 0x00002073#32
  | .csrrc _ _ _ => 0x00003073#32
  | .csrrwi _ _ _ => 0x00005073#32
  | .csrrsi _ _ _ => 0x00006073#32
  | .csrrci _ _ _ => 0x00007073#32

/-- The table's mask, one for all rows. -/
def rowMask : InstrWord := 0x0000707F#32

/-- The instruction a pseudo-instruction is another spelling of (30_encoding.md R64 to R68). -/
def Pseudo.expand : Pseudo → Instr
  | .csrr rd csr => .csrrs rd csr 0#5
  | .csrw csr rs1 => .csrrw 0#5 csr rs1
  | .csrwi csr uimm => .csrrwi 0#5 csr uimm
  | .csrs csr rs1 => .csrrs 0#5 csr rs1
  | .csrc csr rs1 => .csrrc 0#5 csr rs1
  | .csrsi csr uimm => .csrrsi 0#5 csr uimm
  | .csrci csr uimm => .csrrci 0#5 csr uimm

/-- A register as the spec writes it: `x0` to `x31` (30_encoding.md R63). -/
def regText (r : RegNum) : String := "x" ++ toString r.toNat

/-- One hexadecimal digit. -/
def hexDigit (d : Nat) : String := ((["0", "1", "2", "3", "4", "5", "6", "7", "8", "9", "A", "B", "C", "D", "E", "F"])[d]?).getD ""

/-- A CSR operand as the spec writes it: a hexadecimal address of three digits (30_encoding.md R63). -/
def csrText (a : CsrAddr) : String :=
  "0x" ++ hexDigit (a.toNat / 256) ++ hexDigit (a.toNat / 16 % 16) ++ hexDigit (a.toNat % 16)

/-- Assembler text of the six: mnemonic, destination, CSR, source or immediate (30_encoding.md R63). -/
def Instr.text : Instr → String
  | .csrrw rd csr rs1 => "CSRRW " ++ regText rd ++ ", " ++ csrText csr ++ ", " ++ regText rs1
  | .csrrs rd csr rs1 => "CSRRS " ++ regText rd ++ ", " ++ csrText csr ++ ", " ++ regText rs1
  | .csrrc rd csr rs1 => "CSRRC " ++ regText rd ++ ", " ++ csrText csr ++ ", " ++ regText rs1
  | .csrrwi rd csr uimm => "CSRRWI " ++ regText rd ++ ", " ++ csrText csr ++ ", " ++ toString uimm.toNat
  | .csrrsi rd csr uimm => "CSRRSI " ++ regText rd ++ ", " ++ csrText csr ++ ", " ++ toString uimm.toNat
  | .csrrci rd csr uimm => "CSRRCI " ++ regText rd ++ ", " ++ csrText csr ++ ", " ++ toString uimm.toNat

end Sys2Proof
end

