-- ==== Sys2Proof/Machine/Fixture.lean ====
section
/-! DEFINITION. The spec's one concrete CSR file: the plain CSR (10_state.md R20) and the test fixture TF of
95_test_vectors.md section 2 (decision D17), for every XLEN. TF is a test instance and describes no real hart; it is
the platform of `State.reset` only because the spec names no other (log 9). -/

namespace Sys2Proof.Machine

/-- A plain CSR of width `width` with writable mask `mask`, its value in cell `cell` (10_state.md R20). -/
def plainCsr {xlen : Nat} (addr : CsrAddr) (cell width : Nat) (mask : Word xlen) : CsrDesc xlen :=
  { addr := addr, cell := cell, width := width, writableBits := .lit mask }

/-- The convention of the standard CSR address map for read-only CSRs, `csr[11:10] = 0b11`: the instance the spec
suggests for `CsrReadOnly` (00_scope.md section 4; PRESUMED, G8). No rule uses it; a platform may. -/
def standardReadOnly (a : CsrAddr) : Bool := a.extractLsb' 10 2 == 0b11#2

/-- The same map's lowest privilege that may access a CSR, `csr[9:8]`: the instance the spec names for `CsrPrivOK`
(92_eei_decisions.md D7; PRESUMED, G8). No rule uses it; a platform's `allowed` may compare it with a cell. -/
def standardLowestPrivilege (a : CsrAddr) : BitVec 2 := a.extractLsb' 8 2

/-- The cells of the fixture's state `CS`: scratch, narrow, count, bval, lit, fval, hitW, hitA, hitB. -/
def cellScratch : Nat := 0
def cellNarrow : Nat := 1
def cellCount : Nat := 2
def cellBval : Nat := 3
def cellLit : Nat := 4
def cellFval : Nat := 5
def cellHitW : Nat := 6
def cellHitA : Nat := 7
def cellHitB : Nat := 8

/-- Cell `k` takes its value plus one. -/
def increment {xlen : Nat} (k : Nat) : Assign xlen := { cell := k, expr := .add (.cell k) (.lit 1#xlen) }

/-- CSR 0x7C0: the source's light bulb (42_csr_access_rules.md R78). A read lights it; a write of an odd value turns
it off; a write of an even value does nothing. -/
def bulbCsr (xlen : Nat) : CsrDesc xlen :=
  { addr := 0x7C0#12, cell := cellBval, width := xlen
    onRead := [{ cell := cellLit, expr := .lit 1#xlen }]
    onWrite := [{ cell := cellLit, expr := .ite (.and .value (.lit 1#xlen)) (.lit 0#xlen) (.cell cellLit) }] }

/-- CSR 0x7C2: eight bits, with the two fields A = bits 3:0 and B = bits 7:4 that have field-write side effects, each
counted, and a counted whole-register write side effect. -/
def fieldCsr (xlen : Nat) : CsrDesc xlen :=
  { addr := 0x7C2#12, cell := cellFval, width := 8
    writableBits := .lit (BitVec.ofNat xlen 0xFF)
    onWrite := [increment cellHitW]
    fields := [{ hi := 3, lo := 0, effect := [increment cellHitA] }, { hi := 7, lo := 4, effect := [increment cellHitB] }] }

/-- The fixture TF (95_test_vectors.md section 2). 0xC02 is a read-only view of the counter at 0xB02. -/
def fixture (xlen : Nat) : Platform xlen :=
  { csrs :=
      [ plainCsr 0x340#12 cellScratch xlen (BitVec.allOnes xlen),
        plainCsr 0x7C1#12 cellNarrow 8 (BitVec.ofNat xlen 0xFF),
        plainCsr 0xB02#12 cellCount xlen (BitVec.allOnes xlen),
        { addr := 0xC02#12, cell := cellCount, width := xlen, readOnly := true, writableBits := .lit 0#xlen },
        bulbCsr xlen,
        fieldCsr xlen ]
    implicits := [increment cellCount] }

end Sys2Proof.Machine
end

