-- ==== Sys2Proof/Machine/State.lean ====
section
/-! DEFINITION. The state of one hart, as plain data (10_state.md), its reset, and the reasons a step can stop. -/

namespace Sys2Proof.Machine

/-- The state of a hart's CSR file, `CsrFile.CS` (10_state.md R16, R23): the stored values of the CSRs and the state
their side effects and implicit updates act on. -/
structure CS (xlen : Nat) where
  /-- Cells by number, strictly rising, none of value zero: a cell that is not listed holds zero. -/
  cells : List (Nat × Word xlen)
  /-- The model's own field (log 13): how many steps have been taken. It is the place in program order (20_memory.md
  R46) and the moment at which the outside world is looked at. -/
  moment : Nat
deriving DecidableEq, Repr

/-- The two classes of a CSR access for FENCE (20_memory.md R42): a read is device input, a write device output. -/
inductive AccessClass where
  | deviceInput
  | deviceOutput
deriving DecidableEq, Repr

/-- One access in the history that a multi-agent model judges (20_memory.md R46): its class, the hart, the CSR
address, the program-order index, and whether the platform orders the CSR strongly (20_memory.md R44). -/
structure Event where
  cls : AccessClass
  hart : Nat
  csr : CsrAddr
  index : Nat
  strong : Bool
deriving DecidableEq, Repr

/-- One hart. Everything but `platform` is state; no step changes `platform`. -/
structure Hart (xlen : Nat) where
  /-- The parameters of the hart (00_scope.md section 4). -/
  platform : Platform xlen
  /-- The integer registers (10_state.md R10). Slot 0 is never read and never written: `x0` reads zero (R11). -/
  x : Vector (Word xlen) 32
  /-- The program counter (10_state.md R13). -/
  pc : Word xlen
  /-- The state of the CSR file. -/
  cs : CS xlen
  /-- Main memory, addresses strictly rising; only instruction fetch reads it (20_memory.md R31). -/
  mem : List Host.Cell
  /-- The history of CSR accesses, oldest first (20_memory.md R46). -/
  events : List Event
deriving DecidableEq, Repr

/-- The machine: one hart of some XLEN. -/
structure State where
  /-- The parameter XLEN (00_scope.md R2). -/
  xlen : Nat
  hart : Hart xlen
deriving DecidableEq, Repr

/-- Why the machine stops with a fault. -/
inductive Fault where
  /-- The illegal-instruction exception on a hart with no trap layer: a terminal fault that carries what `TakeTrap`
  receives, the instruction's `pc` and its word (60_exceptions.md R124, R125). Raised by all six instructions, on a
  missing CSR, a failed privilege check or a write to a read-only CSR. SAFE: the machine stops where hardware goes on
  to its trap handler. -/
  | illegalInstruction (epc : Nat) (tval : InstrWord)
  /-- `pc` is not aligned as the parameter IALIGN asks (20_memory.md R33). Raised by instruction fetch. SAFE. -/
  | fetchMisaligned (pc : Nat)
  /-- The byte at `address` has no value: nothing was placed there (log 6). Raised by instruction fetch. SAFE. -/
  | fetchNothing (address : Nat)
deriving DecidableEq, Repr

/-- Why the machine gives no meaning. -/
inductive Refusal where
  /-- An instruction of the table that has no meaning yet. Raised by `exec` only, in no arm now. SAFE. -/
  | notModelled (mnemonic : String)
  /-- The fetched bytes are no instruction of this extension (30_encoding.md R60, decision D16). Raised by `step`.
  SAFE: it is neither a CSR instruction nor a no-op. -/
  | notZicsr (reason : DecodeError)
deriving DecidableEq, Repr

/-- A hart of width `xlen` at reset. The spec gives no reset value for anything but `x0` (10_state.md R25): zero in
`x`, `pc` and every cell is DESIGN CHOICE (log 8), the platform is DESIGN CHOICE (log 9). UNSAFE where a claim leans
on one of these; no statement of the package does, but that the invariant holds at reset. -/
def Hart.reset (xlen : Nat) : Hart xlen :=
  { platform := fixture xlen
    x := Vector.replicate 32 0#xlen
    pc := 0#xlen
    cs := { cells := [], moment := 0 }
    mem := []
    events := [] }

/-- The machine right after reset: XLEN 32 (DESIGN CHOICE, log 1). -/
def State.reset : State := { xlen := 32, hart := Hart.reset 32 }

end Sys2Proof.Machine
end

