-- ==== Sys2Proof/Machine/CsrFile.lean ====
section
/-! DEFINITION. The parameter `CsrFile` (10_state.md R16): what a platform's description means, component by
component, under the spec's names. -/

namespace Sys2Proof.Machine

variable {xlen : Nat}

/-- The word with ones in bits `count - 1` down to 0. -/
def lowOnes (xlen count : Nat) : Word xlen := BitVec.ofNat xlen (2 ^ count - 1)

/-- The contents of cell `k`; zero where none is listed. -/
def CS.cell (cs : CS xlen) (k : Nat) : Word xlen := (Assoc.find cs.cells k).getD 0#xlen

/-- Cell `k` takes value `v`; the canonical form lists no zero. -/
def CS.setCell (cs : CS xlen) (k : Nat) (v : Word xlen) : CS xlen :=
  { cs with cells := if v = 0#xlen then Assoc.erase cs.cells k else Assoc.insert cs.cells k v }

/-- The canonical form of the cells: keys strictly rising, no zero listed. -/
def CS.wf (cs : CS xlen) : Bool := Assoc.sorted cs.cells && cs.cells.all fun kv => kv.2 ≠ 0#xlen

/-- What an expression is evaluated with, beside the state of the CSR file. -/
structure Inputs (xlen : Nat) where
  value : Word xlen := 0#xlen
  touched : Word xlen := 0#xlen
  instr : InstrWord := 0#32
  epc : Word xlen := 0#xlen
  cause : Word xlen := 0#xlen
deriving DecidableEq, Repr

/-- The value of an expression. -/
def evalExpr (inp : Inputs xlen) (cs : CS xlen) : CsrExpr xlen → Word xlen
  | .lit v => v
  | .cell k => cs.cell k
  | .value => inp.value
  | .touched => inp.touched
  | .instr lo => (inp.instr >>> lo).setWidth xlen
  | .epc => inp.epc
  | .cause => inp.cause
  | .outside signal => Config.outside xlen signal cs.moment
  | .not a => ~~~ evalExpr inp cs a
  | .and a b => evalExpr inp cs a &&& evalExpr inp cs b
  | .or a b => evalExpr inp cs a ||| evalExpr inp cs b
  | .add a b => evalExpr inp cs a + evalExpr inp cs b
  | .ite c a b => if evalExpr inp cs c = 0#xlen then evalExpr inp cs b else evalExpr inp cs a

/-- The assignments of an effect, one after the other. -/
def applyEffect (inp : Inputs xlen) (effect : List (Assign xlen)) (cs : CS xlen) : CS xlen :=
  effect.foldl (fun cs a => cs.setCell a.cell (evalExpr inp cs a.expr)) cs

/-- The entry of a platform at an address. -/
def csrAt (p : Platform xlen) (a : CsrAddr) : Option (CsrDesc xlen) := p.csrs.find? fun d => d.addr = a

/-- `CsrFile.exists(a, cs)`. -/
def csrExists (p : Platform xlen) (a : CsrAddr) (cs : CS xlen) : Bool :=
  match csrAt p a with
  | some d => evalExpr {} cs d.present ≠ 0#xlen
  | none => false

/-- `CsrFile.read_only(a)`. -/
def csrReadOnly (p : Platform xlen) (a : CsrAddr) : Bool :=
  match csrAt p a with
  | some d => d.readOnly
  | none => false

/-- `CsrFile.priv_ok(a, cs)`. -/
def csrPrivOk (p : Platform xlen) (a : CsrAddr) (cs : CS xlen) : Bool :=
  match csrAt p a with
  | some d => evalExpr {} cs d.allowed ≠ 0#xlen
  | none => true

/-- The value of a CSR in a state, zero above its width (10_state.md R15). -/
def valueIn (d : CsrDesc xlen) (cs : CS xlen) : Word xlen := evalExpr {} cs d.shown &&& lowOnes xlen d.width

/-- `CsrFile.peek(a, cs)`; it changes nothing (law L-pure). -/
def csrPeek (p : Platform xlen) (a : CsrAddr) (cs : CS xlen) : Word xlen :=
  match csrAt p a with
  | some d => valueIn d cs
  | none => 0#xlen

/-- `CsrFile.read_effect(a, cs)`. -/
def csrReadEffect (p : Platform xlen) (a : CsrAddr) (cs : CS xlen) : CS xlen :=
  match csrAt p a with
  | some d => applyEffect {} d.onRead cs
  | none => cs

/-- The bits of a CSR that a write can change. -/
def writableIn (d : CsrDesc xlen) (cs : CS xlen) : Word xlen := evalExpr {} cs d.writableBits &&& lowOnes xlen d.width

/-- `CsrFile.writable(a, cs)`. -/
def csrWritable (p : Platform xlen) (a : CsrAddr) (cs : CS xlen) : Word xlen :=
  match csrAt p a with
  | some d => writableIn d cs
  | none => 0#xlen

/-- `CsrFile.fields(a)`. -/
def csrFields (p : Platform xlen) (a : CsrAddr) : List (Nat × Nat) :=
  match csrAt p a with
  | some d => d.fields.map fun f => (f.hi, f.lo)
  | none => []

/-- `t[hi:lo] != 0` (law L-field). -/
def fieldTouched (t : Word xlen) (hi lo : Nat) : Bool := t.extractLsb hi lo ≠ 0#(hi - lo + 1)

/-- The storing part of a write: the writable bits take what the CSR's legalisation makes of the presented value, the
others keep their value (42_csr_access_rules.md R87). -/
def storeIn (d : CsrDesc xlen) (inp : Inputs xlen) (cs : CS xlen) : CS xlen :=
  cs.setCell d.cell
    ((cs.cell d.cell &&& ~~~ writableIn d cs) ||| (evalExpr inp cs d.stored &&& writableIn d cs))

/-- The field side effects of a write: those of the fields that the mask touches (42_csr_access_rules.md R79). -/
def fieldEffects (inp : Inputs xlen) (fields : List (FieldEffect xlen)) (cs : CS xlen) : CS xlen :=
  fields.foldl (fun cs f => if fieldTouched inp.touched f.hi f.lo then applyEffect inp f.effect cs else cs) cs

/-- `CsrFile.write(a, cs, v, t)`: it stores, then performs the whole-register write side effects, on every call, then
the side effects of the touched fields (10_state.md R16; this order within one write is DESIGN CHOICE, log 17). -/
def csrWriteEffect (p : Platform xlen) (a : CsrAddr) (cs : CS xlen) (v t : Word xlen) : CS xlen :=
  match csrAt p a with
  | some d =>
    let inp : Inputs xlen := { value := v, touched := t }
    fieldEffects inp d.fields (applyEffect inp d.onWrite (storeIn d inp cs))
  | none => cs

/-- Cell `k` is the cell of a CSR whose address is in `w`, or one that its value is read from. -/
def backs (p : Platform xlen) (w : List CsrAddr) (k : Nat) : Bool :=
  w.any fun a => match csrAt p a with
    | some d => d.cell == k || mentionsCell k d.shown
    | none => false

/-- `CsrFile.implicit(cs, w, info)`: the assignments that executing one instruction makes, but for those to a CSR in
`w`, at whatever address that CSR is also seen (law L-skip, log 18). -/
def csrImplicit (p : Platform xlen) (cs : CS xlen) (w : List CsrAddr) (info : InstrWord) : CS xlen :=
  applyEffect { instr := info } (p.implicits.filter fun a => !backs p w a.cell) cs

end Sys2Proof.Machine
end

