-- ==== Sys2Proof/Machine/Operands.lean ====
section
/-! DEFINITION. Operands: the integer registers, the immediate, and what the operation and the field values of an
instruction decide (42_csr_access_rules.md R71, R90). -/

namespace Sys2Proof.Machine

variable {xlen : Nat}

/-- `x[r]`: register `r`, with `x0` reading as zero (10_state.md R11). -/
def readX (h : Hart xlen) (r : RegNum) : Word xlen :=
  if r = 0#5 then 0#xlen else h.x.get r.toFin

/-- `x[r] <- v`: a write to `x0` is discarded (10_state.md R11). -/
def writeX (h : Hart xlen) (r : RegNum) (v : Word xlen) : Hart xlen :=
  if r = 0#5 then h else { h with x := h.x.set r.toNat v r.toFin.isLt }

/-- `zext_XLEN(uimm)` (30_encoding.md R56). -/
def immOperand (xlen : Nat) (uimm : Uimm) : Word xlen := uimm.setWidth xlen

/-- What an instruction does to the CSR: write it, set bits in it, clear bits in it (42_csr_access_rules.md R71). -/
inductive CsrOp where
  | write
  | set
  | clear
deriving DecidableEq, Repr

/-- Does the instruction read the CSR: a test of the `rd` FIELD, for the write forms only (42_csr_access_rules.md R70,
R71). -/
def doesRead (op : CsrOp) (rd : RegNum) : Bool :=
  match op with
  | .write => rd ≠ 0#5
  | .set => true
  | .clear => true

/-- Does the instruction write the CSR: a test of the `rs1` or `uimm` FIELD, for the set and clear forms only
(42_csr_access_rules.md R70, R71, R73). -/
def doesWrite (op : CsrOp) (src : BitVec 5) : Bool :=
  match op with
  | .write => true
  | .set => src ≠ 0#5
  | .clear => src ≠ 0#5

/-- The value a write presents (42_csr_access_rules.md R88, R90 lines 9 to 12). `old` is not used by a write form,
which need not have read the CSR. -/
def presentedValue (op : CsrOp) (old operand : Word xlen) : Word xlen :=
  match op with
  | .write => operand
  | .set => old ||| operand
  | .clear => old &&& ~~~ operand

/-- The touched-bit mask of a write: all ones for the write forms, the operand for the others
(42_csr_access_rules.md R79). -/
def touchedMask (op : CsrOp) (operand : Word xlen) : Word xlen :=
  match op with
  | .write => BitVec.allOnes xlen
  | .set => operand
  | .clear => operand

/-! ### The parts of an instruction (42_csr_access_rules.md R90) -/

/-- `op` of the template. -/
def instrOp : Instr → CsrOp
  | .csrrw _ _ _ => .write
  | .csrrs _ _ _ => .set
  | .csrrc _ _ _ => .clear
  | .csrrwi _ _ _ => .write
  | .csrrsi _ _ _ => .set
  | .csrrci _ _ _ => .clear

/-- The `rd` field. -/
def instrRd : Instr → RegNum
  | .csrrw rd _ _ => rd
  | .csrrs rd _ _ => rd
  | .csrrc rd _ _ => rd
  | .csrrwi rd _ _ => rd
  | .csrrsi rd _ _ => rd
  | .csrrci rd _ _ => rd

/-- The `csr` field. -/
def instrCsr : Instr → CsrAddr
  | .csrrw _ csr _ => csr
  | .csrrs _ csr _ => csr
  | .csrrc _ csr _ => csr
  | .csrrwi _ csr _ => csr
  | .csrrsi _ csr _ => csr
  | .csrrci _ csr _ => csr

/-- `src`: the `rs1` field or the `uimm` field, the same five bits. -/
def instrSrc : Instr → BitVec 5
  | .csrrw _ _ rs1 => rs1
  | .csrrs _ _ rs1 => rs1
  | .csrrc _ _ rs1 => rs1
  | .csrrwi _ _ uimm => uimm
  | .csrrsi _ _ uimm => uimm
  | .csrrci _ _ uimm => uimm

/-- `operand`: the initial value of `x[rs1]`, or the zero-extended immediate. -/
def instrOperand (h : Hart xlen) : Instr → Word xlen
  | .csrrw _ _ rs1 => readX h rs1
  | .csrrs _ _ rs1 => readX h rs1
  | .csrrc _ _ rs1 => readX h rs1
  | .csrrwi _ _ uimm => immOperand xlen uimm
  | .csrrsi _ _ uimm => immOperand xlen uimm
  | .csrrci _ _ uimm => immOperand xlen uimm

/-- The instruction reads the CSR (42_csr_access_rules.md R70). -/
def readsCsr (i : Instr) : Bool := doesRead (instrOp i) (instrRd i)

/-- The instruction writes the CSR (42_csr_access_rules.md R70). -/
def writesCsr (i : Instr) : Bool := doesWrite (instrOp i) (instrSrc i)

end Sys2Proof.Machine
end

