-- ==== Sys2Proof/Machine/Ops.lean ====
section
/-! DEFINITION. The operations every instruction is made of: main memory for fetch, the explicit access primitives
`CsrRead` and `CsrWrite`, `ImplicitUpdate`, raising the illegal-instruction exception, and the step template of
42_csr_access_rules.md R90. There is no return from an exception: it is in no source (60_exceptions.md R131). -/

namespace Sys2Proof.Machine

variable {xlen : Nat}

/-! ### Main memory, read by instruction fetch only (20_memory.md R31, R32) -/

/-- The byte at an address, where one was placed (log 6). -/
def readByte (h : Hart xlen) (address : Nat) : Option Byte := Assoc.find h.mem address

/-- Place a byte at an address. No instruction does this; a program is placed so. -/
def placeByte (h : Hart xlen) (address : Nat) (b : Byte) : Hart xlen :=
  { h with mem := Assoc.insert h.mem address b }

/-- The canonical form of memory: addresses strictly rising, each in the address space. -/
def Memory.wf (h : Hart xlen) : Bool := Assoc.sorted h.mem && h.mem.all fun c => c.1 < 2 ^ xlen

/-- The addresses of the four bytes of the instruction at `pc`; the address space wraps at its top (10_state.md R13). -/
def fetchAddresses (pc : Word xlen) : List Nat :=
  [pc.toNat, (pc + 1#xlen).toNat, (pc + 2#xlen).toNat, (pc + 3#xlen).toNat]

/-- Place the bytes of an instruction word at `pc`, little-endian (20_memory.md R32). -/
def placeWord (h : Hart xlen) (w : InstrWord) : Hart xlen :=
  ((fetchAddresses h.pc).zip (bytesOfWord w)).foldl (fun h ab => placeByte h ab.1 ab.2) h

/-- `pc` is aligned as IALIGN asks (20_memory.md R33). -/
def pcAligned (p : Platform xlen) (pc : Word xlen) : Bool :=
  match p.ialign with
  | .bits16 => pc.toNat % 2 = 0
  | .bits32 => pc.toNat % 4 = 0

/-- The bytes at the given addresses, or the first address without a byte. -/
def readBytes (h : Hart xlen) : List Nat → Except Fault (List Byte)
  | [] => .ok []
  | a :: rest =>
    match readByte h a with
    | none => .error (.fetchNothing a)
    | some b =>
      match readBytes h rest with
      | .ok bs => .ok (b :: bs)
      | .error e => .error e

/-- Instruction fetch: the four bytes at `pc`, lowest address first. -/
def fetch (h : Hart xlen) : Except Fault (List Byte) :=
  if pcAligned h.platform h.pc then readBytes h (fetchAddresses h.pc) else .error (.fetchMisaligned h.pc.toNat)

/-! ### Accesses to the CSR file -/

/-- Add one access to the history (20_memory.md R42, R46). -/
def recordAccess (h : Hart xlen) (cls : AccessClass) (csr : CsrAddr) : Hart xlen :=
  { h with events := h.events ++ [{ cls := cls, hart := h.platform.hartId, csr := csr, index := h.cs.moment
                                    strong := h.platform.strong.contains csr }] }

/-- What `CsrRead(a)` does beside returning `CsrFile.peek(a, cs)`: the read side effects (10_state.md R17), and one
access of class device input in the history. -/
def afterCsrRead (h : Hart xlen) (a : CsrAddr) : Hart xlen :=
  recordAccess { h with cs := csrReadEffect h.platform a h.cs } .deviceInput a

/-- `CsrWrite(a, v, t)` (10_state.md R18), and one access of class device output in the history. -/
def csrWrite (h : Hart xlen) (a : CsrAddr) (v t : Word xlen) : Hart xlen :=
  recordAccess { h with cs := csrWriteEffect h.platform a h.cs v t } .deviceOutput a

/-- `ImplicitUpdate(w)` (10_state.md R19). -/
def implicitUpdate (h : Hart xlen) (w : List CsrAddr) (info : InstrWord) : Hart xlen :=
  { h with cs := csrImplicit h.platform h.cs w info }

/-- `pc <- pc + 4`, modulo 2^XLEN (10_state.md R13). -/
def advancePc (h : Hart xlen) : Hart xlen := { h with pc := h.pc + 4#xlen }

/-- The outcome of a step of one hart. -/
abbrev HartOutcome (xlen : Nat) := Host.Outcome (Hart xlen) Fault Refusal

/-- The cause code of the illegal-instruction exception (60_exceptions.md R125; PRESUMED, G10, log 10). -/
def illegalInstructionCause : Nat := 2

/-- `raise IllegalInstruction(instr)` (60_exceptions.md R124): the instruction has no effect of its own, and control
passes to `TakeTrap` with the cause, the instruction's `pc` and its word, in the state that the previous instruction
left. Without a trap layer this is a terminal fault; a trap layer records and redirects as the platform says. -/
def raiseIllegal (h : Hart xlen) (instr : InstrWord) : HartOutcome xlen :=
  match h.platform.trap with
  | .terminal => .fault (.illegalInstruction h.pc.toNat instr)
  | .handler saves target =>
    let inp : Inputs xlen := { instr := instr, epc := h.pc, cause := BitVec.ofNat xlen illegalInstructionCause }
    .next { h with cs := applyEffect inp saves h.cs, pc := evalExpr inp h.cs target }

/-- The hart may do this access: the CSR exists, the privilege check passes, and it is not a write to a read-only CSR
(42_csr_access_rules.md R90 lines 3 to 5). -/
def accessAllowed (h : Hart xlen) (csr : CsrAddr) (writes : Bool) : Bool :=
  csrExists h.platform csr h.cs && csrPrivOk h.platform csr h.cs && !(writes && csrReadOnly h.platform csr)

/-- Line 7 of the template: the read, where the instruction reads. -/
def readPhase (reads : Bool) (h : Hart xlen) (csr : CsrAddr) : Hart xlen :=
  if reads then afterCsrRead h csr else h

/-- Lines 8 to 13 of the template: the write, where the instruction writes. -/
def writePhase (writes : Bool) (op : CsrOp) (h : Hart xlen) (csr : CsrAddr) (old operand : Word xlen) : Hart xlen :=
  if writes then csrWrite h csr (presentedValue op old operand) (touchedMask op operand) else h

/-- Line 14 of the template: the write of `rd`, where the instruction reads. -/
def resultPhase (reads : Bool) (h : Hart xlen) (rd : RegNum) (old : Word xlen) : Hart xlen :=
  if reads then writeX h rd old else h

/-- The set of CSRs an instruction wrote explicitly (42_csr_access_rules.md R85). -/
def writtenSet (writes : Bool) (csr : CsrAddr) : List CsrAddr := if writes then [csr] else []

/-- The template of 42_csr_access_rules.md R90: the one atomic step of all six instructions. `src` is the five-bit
`rs1` or `uimm` field, `operand` the value it stands for, bound before any state changes (R89); `instr` is the
instruction's word. -/
def csrStep (op : CsrOp) (rd : RegNum) (csr : CsrAddr) (src : BitVec 5) (operand : Word xlen) (instr : InstrWord)
    (h : Hart xlen) : HartOutcome xlen :=
  if accessAllowed h csr (doesWrite op src) then
    let old := csrPeek h.platform csr h.cs
    let afterRead := readPhase (doesRead op rd) h csr
    let afterWrite := writePhase (doesWrite op src) op afterRead csr old operand
    let afterResult := resultPhase (doesRead op rd) afterWrite rd old
    .next (advancePc (implicitUpdate afterResult (writtenSet (doesWrite op src) csr) instr))
  else raiseIllegal h instr

/-- The outcome of the machine, from the outcome of its hart. -/
def liftHart (xlen : Nat) : HartOutcome xlen → Host.Outcome State Fault Refusal
  | .next h => .next { xlen := xlen, hart := h }
  | .fault r => .fault r
  | .refused r => .refused r

/-- The world outside goes on between two instructions (60_exceptions.md R129, R130, log 13). -/
def passMoment (h : Hart xlen) : Hart xlen := { h with cs := { h.cs with moment := h.cs.moment + 1 } }

end Sys2Proof.Machine
end

