-- ==== Sys2Proof/Machine/CsrImmediate.lean ====
section
/-! DEFINITION. The instructions with an immediate operand: CSRRWI, CSRRSI, CSRRCI (41_csr_immediate.md). They read no
integer register. -/

namespace Sys2Proof.Machine

/-- CSRRWI rd, csr, uimm (R110): write the zero-extended immediate. It reads the CSR if the rd field is not x0 and
writes it always, uimm = 0 included. -/
def execCsrrwi (rd : RegNum) (csr : CsrAddr) (uimm : Uimm) (s : State) : Host.Outcome State Fault Refusal :=
  liftHart s.xlen (csrStep .write rd csr uimm (immOperand s.xlen uimm) (encode (.csrrwi rd csr uimm)) s.hart)

/-- CSRRSI rd, csr, uimm (R111): read a CSR and set in it the bits of the zero-extended immediate. It reads always and
writes if uimm is not 0. -/
def execCsrrsi (rd : RegNum) (csr : CsrAddr) (uimm : Uimm) (s : State) : Host.Outcome State Fault Refusal :=
  liftHart s.xlen (csrStep .set rd csr uimm (immOperand s.xlen uimm) (encode (.csrrsi rd csr uimm)) s.hart)

/-- CSRRCI rd, csr, uimm (R112): read a CSR and clear in it the bits of the zero-extended immediate. It reads always
and writes if uimm is not 0. -/
def execCsrrci (rd : RegNum) (csr : CsrAddr) (uimm : Uimm) (s : State) : Host.Outcome State Fault Refusal :=
  liftHart s.xlen (csrStep .clear rd csr uimm (immOperand s.xlen uimm) (encode (.csrrci rd csr uimm)) s.hart)

end Sys2Proof.Machine
end

