-- ==== Sys2Proof/Machine/CsrRegister.lean ====
section
/-! DEFINITION. The instructions with a register operand: CSRRW, CSRRS, CSRRC (40_csr_register.md). -/

namespace Sys2Proof.Machine

/-- CSRRW rd, csr, rs1 (R100): swap a CSR and the integer registers. It reads the CSR if the rd field is not x0 and
writes it always. -/
def execCsrrw (rd : RegNum) (csr : CsrAddr) (rs1 : RegNum) (s : State) : Host.Outcome State Fault Refusal :=
  liftHart s.xlen (csrStep .write rd csr rs1 (readX s.hart rs1) (encode (.csrrw rd csr rs1)) s.hart)

/-- CSRRS rd, csr, rs1 (R101): read a CSR and set in it the bits of `x[rs1]`. It reads always and writes if the rs1
field is not x0. -/
def execCsrrs (rd : RegNum) (csr : CsrAddr) (rs1 : RegNum) (s : State) : Host.Outcome State Fault Refusal :=
  liftHart s.xlen (csrStep .set rd csr rs1 (readX s.hart rs1) (encode (.csrrs rd csr rs1)) s.hart)

/-- CSRRC rd, csr, rs1 (R102): read a CSR and clear in it the bits of `x[rs1]`. It reads always and writes if the rs1
field is not x0. -/
def execCsrrc (rd : RegNum) (csr : CsrAddr) (rs1 : RegNum) (s : State) : Host.Outcome State Fault Refusal :=
  liftHart s.xlen (csrStep .clear rd csr rs1 (readX s.hart rs1) (encode (.csrrc rd csr rs1)) s.hart)

end Sys2Proof.Machine
end

