-- ==== Sys2Proof/Machine/Step.lean ====
section
/-! DEFINITION. One step of the machine: fetch the instruction at `pc`, decode it, execute it, and let the world
outside go on. -/

namespace Sys2Proof.Machine

/-- What follows the execution of an instruction: the hart is between two instructions, and the moment passes. -/
def afterInstruction : Host.Outcome State Fault Refusal → Host.Outcome State Fault Refusal
  | .next s => .next { xlen := s.xlen, hart := passMoment s.hart }
  | .fault r => .fault r
  | .refused r => .refused r

/-- One step. Bytes that are no instruction of this extension are refused (30_encoding.md R60). -/
def step (s : State) : Host.Outcome State Fault Refusal :=
  match fetch s.hart with
  | .error f => .fault f
  | .ok bytes =>
    match decode bytes with
    | .error e => .refused (.notZicsr e)
    | .ok (i, _) => afterInstruction (exec i s)

/-- `s` with the instruction of word `w`, of which the table gives `nbits` bits, at the program counter. -/
def State.withFetchWord (s : State) (nbits w : Nat) : State :=
  { xlen := s.xlen, hart := placeWord s.hart (BitVec.ofNat 32 (w % 2 ^ nbits)) }

end Sys2Proof.Machine
end

