-- ==== Sys2Proof/Safety.lean ====
section
/-! DEFINITION. The terms claims are made in: an instruction that goes on, the invariant of a run, and a platform that
differs from another in one CSR. -/

namespace Sys2Proof.Machine

variable {xlen : Nat}

/-- Executing `i` on hart `h` answers a next state, with hart `h'`; XLEN is a parameter and stays. -/
abbrev Goes (i : Instr) (h h' : Hart xlen) : Prop :=
  exec i { xlen := xlen, hart := h } = .next { xlen := xlen, hart := h' }

/-- Executing `i` on hart `h` raises the illegal-instruction exception (60_exceptions.md R124). -/
abbrev Raises (i : Instr) (h : Hart xlen) : Prop :=
  exec i { xlen := xlen, hart := h } = liftHart xlen (raiseIllegal h (encode i))

/-- The history is one of this hart, in program order, and lies in the past (20_memory.md R46). -/
structure HistoryInv (h : Hart xlen) : Prop where
  ordered : h.events.Pairwise fun e f => e.index ≤ f.index
  past : ∀ e ∈ h.events, e.index < h.cs.moment
  own : ∀ e ∈ h.events, e.hart = h.platform.hartId
  marked : ∀ e ∈ h.events, e.strong = h.platform.strong.contains e.csr

/-- What every step keeps: a well-formed platform, canonical memory, canonical cells, and the history. -/
structure HartInv (h : Hart xlen) : Prop where
  platformWf : h.platform.wellFormed = true
  memory : Memory.wf h = true
  cells : h.cs.wf = true
  history : HistoryInv h

/-- A CSR exists at `csr` and the hart may access it in its state (42_csr_access_rules.md R90 lines 3 and 4). -/
abbrev Accessible (h : Hart xlen) (csr : CsrAddr) : Prop :=
  csrExists h.platform csr h.cs = true ∧ csrPrivOk h.platform csr h.cs = true

/-- The CSR at `csr` is not read-only (42_csr_access_rules.md R90 line 5). -/
abbrev NotReadOnly (h : Hart xlen) (csr : CsrAddr) : Prop := csrReadOnly h.platform csr = false

/-- The access of class device input that an instruction's read adds to the history (20_memory.md R42). -/
def inputEvent (h : Hart xlen) (csr : CsrAddr) : Event :=
  { cls := .deviceInput, hart := h.platform.hartId, csr := csr, index := h.cs.moment
    strong := h.platform.strong.contains csr }

/-- The access of class device output that an instruction's write adds to the history (20_memory.md R42). -/
def outputEvent (h : Hart xlen) (csr : CsrAddr) : Event :=
  { cls := .deviceOutput, hart := h.platform.hartId, csr := csr, index := h.cs.moment
    strong := h.platform.strong.contains csr }

/-- The platform with the entries at `a` changed by `f`. -/
def changeCsr (p : Platform xlen) (a : CsrAddr) (f : CsrDesc xlen → CsrDesc xlen) : Platform xlen :=
  { p with csrs := p.csrs.map fun d => if d.addr = a then f d else d }

/-- The hart on another platform. -/
def onPlatform (h : Hart xlen) (p : Platform xlen) : Hart xlen := { h with platform := p }

/-- A mask has a bit set among the positions `hi` down to `lo` (42_csr_access_rules.md R79). -/
def hasBitIn (t : Word xlen) (hi lo : Nat) : Bool := (List.range (hi + 1)).any fun b => lo ≤ b && t.getLsbD b

/-- No assignment of the effect is to cell `k`. -/
def sparesCell (k : Nat) (effect : List (Assign xlen)) : Bool := effect.all fun a => a.cell ≠ k

/-- The effect assigns cell `k`, and nothing but the constant `v`: where the effect happens the cell holds `v`
afterwards, in whatever order its assignments come. -/
def marksCell (k : Nat) (v : Word xlen) (effect : List (Assign xlen)) : Bool :=
  !sparesCell k effect && effect.all fun a => a.cell ≠ k || a.expr = .lit v

end Sys2Proof.Machine
end

