-- ==== Sys2Proof/Certificates/Slice0/Obligations.lean ====
section
/-! DEFINITION. The statements for the provers. Each is about every XLEN, every platform (every `CsrFile`, trap layer,
IALIGN and StrongCsr, as plain data) and every state, but for what its hypotheses say; none leans on a reset value. -/

open Sys2Proof Sys2Proof.Machine

/-! ### Encoding (30_encoding.md; the field positions and code values are the spec's from general knowledge, log 5) -/

/-- Decoding the bytes of an encoded instruction gives the instruction back, whatever bytes follow: every combination
of csr, rs1 or uimm and rd is an instruction (30_encoding.md R58, R61). -/
def Obligations.DecodeOfEncodeIsTheInstruction : Prop :=
  ∀ (i : Instr) (rest : List Byte), i.wellFormed = true → decode (bytesOfWord (encode i) ++ rest) = .ok (i, rest)

/-- The other direction: the word an instruction is decoded from is its encoding, so no bit of it is dropped. -/
def Obligations.EncodeOfDecodedWordIsTheWord : Prop :=
  ∀ (w : InstrWord) (i : Instr), decodeWord w = .ok i → encode i = w

/-- Decoding is the test of the masked word against the six match values, with the fields at their places; any other
word is no instruction of the extension (30_encoding.md R52 to R55, R58, R60). -/
def Obligations.DecodingFollowsMaskAndMatch : Prop :=
  ∀ (w : InstrWord),
    (w &&& 0x0000707F#32 = 0x00001073#32 →
      decodeWord w = .ok (.csrrw (w.extractLsb' 7 5) (w.extractLsb' 20 12) (w.extractLsb' 15 5))) ∧
    (w &&& 0x0000707F#32 = 0x00002073#32 →
      decodeWord w = .ok (.csrrs (w.extractLsb' 7 5) (w.extractLsb' 20 12) (w.extractLsb' 15 5))) ∧
    (w &&& 0x0000707F#32 = 0x00003073#32 →
      decodeWord w = .ok (.csrrc (w.extractLsb' 7 5) (w.extractLsb' 20 12) (w.extractLsb' 15 5))) ∧
    (w &&& 0x0000707F#32 = 0x00005073#32 →
      decodeWord w = .ok (.csrrwi (w.extractLsb' 7 5) (w.extractLsb' 20 12) (w.extractLsb' 15 5))) ∧
    (w &&& 0x0000707F#32 = 0x00006073#32 →
      decodeWord w = .ok (.csrrsi (w.extractLsb' 7 5) (w.extractLsb' 20 12) (w.extractLsb' 15 5))) ∧
    (w &&& 0x0000707F#32 = 0x00007073#32 →
      decodeWord w = .ok (.csrrci (w.extractLsb' 7 5) (w.extractLsb' 20 12) (w.extractLsb' 15 5))) ∧
    (w &&& 0x0000707F#32 ∉ [0x00001073#32, 0x00002073#32, 0x00003073#32, 0x00005073#32, 0x00006073#32, 0x00007073#32] →
      ∃ e, decodeWord w = .error e)

/-- Words written out from the table of 30_encoding.md R59 decode to the instructions they stand for (the decode
vectors of 95_test_vectors.md section 4). -/
def Obligations.WrittenOutWordsDecode : Prop :=
  decodeWord 0b001101000000_00110_001_00101_1110011#32 = .ok (.csrrw 5#5 0x340#12 6#5) ∧
  decodeWord 0b001101000000_00101_010_00101_1110011#32 = .ok (.csrrs 5#5 0x340#12 5#5) ∧
  decodeWord 0b001101000000_00110_011_00101_1110011#32 = .ok (.csrrc 5#5 0x340#12 6#5) ∧
  decodeWord 0b001101000000_10101_101_00101_1110011#32 = .ok (.csrrwi 5#5 0x340#12 21#5) ∧
  decodeWord 0b001101000000_10101_110_00101_1110011#32 = .ok (.csrrsi 5#5 0x340#12 21#5) ∧
  decodeWord 0b111111111111_11111_111_11111_1110011#32 = .ok (.csrrci 31#5 0xFFF#12 31#5) ∧
  decodeWord 0b001101000000_00110_100_00000_1110011#32 = .error (.notCsrFunct3 0x34034073#32)

/-- The words of the seven pseudo-instructions, as 30_encoding.md R64 to R68 compute them. -/
def Obligations.PseudoInstructionWords : Prop :=
  ∀ (rd rs1 : RegNum) (csr : CsrAddr) (uimm : Uimm),
    encode (Pseudo.csrr rd csr).expand =
      csr.setWidth 32 <<< 20 ||| 0#32 <<< 15 ||| 0b010#32 <<< 12 ||| rd.setWidth 32 <<< 7 ||| 0x73#32 ∧
    encode (Pseudo.csrw csr rs1).expand =
      csr.setWidth 32 <<< 20 ||| rs1.setWidth 32 <<< 15 ||| 0b001#32 <<< 12 ||| 0#32 <<< 7 ||| 0x73#32 ∧
    encode (Pseudo.csrwi csr uimm).expand =
      csr.setWidth 32 <<< 20 ||| uimm.setWidth 32 <<< 15 ||| 0b101#32 <<< 12 ||| 0#32 <<< 7 ||| 0x73#32 ∧
    encode (Pseudo.csrs csr rs1).expand =
      csr.setWidth 32 <<< 20 ||| rs1.setWidth 32 <<< 15 ||| 0b010#32 <<< 12 ||| 0#32 <<< 7 ||| 0x73#32 ∧
    encode (Pseudo.csrc csr rs1).expand =
      csr.setWidth 32 <<< 20 ||| rs1.setWidth 32 <<< 15 ||| 0b011#32 <<< 12 ||| 0#32 <<< 7 ||| 0x73#32 ∧
    encode (Pseudo.csrsi csr uimm).expand =
      csr.setWidth 32 <<< 20 ||| uimm.setWidth 32 <<< 15 ||| 0b110#32 <<< 12 ||| 0#32 <<< 7 ||| 0x73#32 ∧
    encode (Pseudo.csrci csr uimm).expand =
      csr.setWidth 32 <<< 20 ||| uimm.setWidth 32 <<< 15 ||| 0b111#32 <<< 12 ||| 0#32 <<< 7 ||| 0x73#32

/-! ### Fetch and step -/

/-- A word placed at an aligned pc is what fetch reads, its low byte at the lowest address (20_memory.md R32; the
model's reading of fetch, log 6), and decoding it is decoding the word. -/
def Obligations.WordPlacedAtPcIsFetched : Prop :=
  ∀ (s : State) (w : InstrWord), xlenOk s.xlen = true → pcAligned s.hart.platform s.hart.pc = true →
    readByte (s.withFetchWord 32 w.toNat).hart s.hart.pc.toNat = some (w.extractLsb' 0 8) ∧
    readByte (s.withFetchWord 32 w.toNat).hart (s.hart.pc + 3#s.xlen).toNat = some (w.extractLsb' 24 8) ∧
    fetch (s.withFetchWord 32 w.toNat).hart = .ok (bytesOfWord w) ∧
    (∀ i, decodeWord w = .ok i → decode (bytesOfWord w) = .ok (i, []))

/-- A step runs the decoded instruction: where pc is aligned and the four bytes from pc on, lowest address first, are
those of a word that decodes to `i`, step is exec of `i` at that state, and after a next state the model's moment has
passed (log 13); a fault of the instruction is the step's fault; pc is moved by the instruction itself. -/
def Obligations.StepRunsTheDecodedInstruction : Prop :=
  ∀ (n : Nat) (h : Hart n) (b0 b1 b2 b3 : Byte) (i : Instr),
    pcAligned h.platform h.pc = true →
    readByte h h.pc.toNat = some b0 → readByte h (h.pc + 1#n).toNat = some b1 →
    readByte h (h.pc + 2#n).toNat = some b2 → readByte h (h.pc + 3#n).toNat = some b3 →
    decodeWord (b3 ++ b2 ++ b1 ++ b0) = .ok i →
    step { xlen := n, hart := h } = afterInstruction (exec i { xlen := n, hart := h }) ∧
    (∀ h' : Hart n, Goes i h h' → step { xlen := n, hart := h } = .next { xlen := n, hart := passMoment h' }) ∧
    (∀ r, exec i { xlen := n, hart := h } = .fault r → step { xlen := n, hart := h } = .fault r)

/-- Words under the SYSTEM opcode with funct3 000 or 100 are reported as no Zicsr instruction and given no meaning
(30_encoding.md R60, decision D16); so is a word under any other opcode (R58). -/
def Obligations.StepRefusesWordsThatAreNoCsrInstruction : Prop :=
  ∀ (n : Nat) (h : Hart n) (b0 b1 b2 b3 : Byte),
    pcAligned h.platform h.pc = true →
    readByte h h.pc.toNat = some b0 → readByte h (h.pc + 1#n).toNat = some b1 →
    readByte h (h.pc + 2#n).toNat = some b2 → readByte h (h.pc + 3#n).toNat = some b3 →
    ((b3 ++ b2 ++ b1 ++ b0).extractLsb' 0 7 = 0b1110011#7 →
      (b3 ++ b2 ++ b1 ++ b0).extractLsb' 12 3 = 0b000#3 ∨ (b3 ++ b2 ++ b1 ++ b0).extractLsb' 12 3 = 0b100#3 →
      step { xlen := n, hart := h } = .refused (.notZicsr (.notCsrFunct3 (b3 ++ b2 ++ b1 ++ b0)))) ∧
    ((b3 ++ b2 ++ b1 ++ b0).extractLsb' 0 7 ≠ 0b1110011#7 →
      step { xlen := n, hart := h } = .refused (.notZicsr (.notSystemOpcode (b3 ++ b2 ++ b1 ++ b0))))

/-- When fetch stops: at a pc that is not aligned as IALIGN asks; or, at an aligned pc, at the first of the four bytes
from pc on that was never placed, the ones before it placed; the fault names that byte's address (the model's choice,
log 6, log 7; the base ISA's fetch is in no source). -/
def Obligations.FetchStopsOnMisalignedPcOrAbsentByte : Prop :=
  ∀ (n : Nat) (h : Hart n),
    (pcAligned h.platform h.pc = false → step { xlen := n, hart := h } = .fault (.fetchMisaligned h.pc.toNat)) ∧
    (∀ k, k < 4 → pcAligned h.platform h.pc = true →
      (∀ j, j < k → (readByte h (h.pc + BitVec.ofNat n j).toNat).isSome = true) →
      readByte h (h.pc + BitVec.ofNat n k).toNat = none →
      step { xlen := n, hart := h } = .fault (.fetchNothing (h.pc + BitVec.ofNat n k).toNat))

/-! ### Registers -/

/-- `x[0]` is zero, and a write to it has no effect; a write to any other register is read back and changes no other
register (10_state.md R10, R11). -/
def Obligations.RegisterZeroReadsZeroAndDiscardsWrites : Prop :=
  ∀ (n : Nat) (h : Hart n) (r q : RegNum) (v : Word n),
    readX h 0#5 = 0#n ∧ writeX h 0#5 v = h ∧
    (r ≠ 0#5 → readX (writeX h r v) r = v) ∧ (q ≠ r → readX (writeX h r v) q = readX h q)

/-! ### What each instruction does (40_csr_register.md, 41_csr_immediate.md) -/

/-- CSRRW on a CSR that exists, is accessible and is not read-only goes on: `rd` receives the old value of the CSR
unless it is `x0`; the CSR is written with the initial value of `rs1` and an all-ones mask, after the read side effects
of a read that happens only for `rd` not `x0` (that the read comes first is an inference, R91, log 19); the implicit
update skips the CSR; pc advances by 4 (R100). -/
def Obligations.CsrrwSwapsCsrAndRegister : Prop :=
  ∀ (n : Nat) (h : Hart n) (rd : RegNum) (csr : CsrAddr) (rs1 : RegNum), Accessible h csr → NotReadOnly h csr →
    ∃ h' : Hart n, Goes (.csrrw rd csr rs1) h h' ∧ h'.pc = h.pc + 4#n ∧
      (∀ q, readX h' q = if q = rd ∧ rd ≠ 0#5 then csrPeek h.platform csr h.cs else readX h q) ∧
      h'.cs = csrImplicit h.platform
        (csrWriteEffect h.platform csr (if rd ≠ 0#5 then csrReadEffect h.platform csr h.cs else h.cs)
          (readX h rs1) (BitVec.allOnes n)) [csr] (encode (.csrrw rd csr rs1)) ∧
      (∀ a, readByte h' a = readByte h a) ∧ h'.platform = h.platform

/-- CSRRS on an accessible CSR that is not read-only, or with `rs1` = `x0`, goes on: `rd` receives the old value; the
read side effects happen; unless the `rs1` FIELD is `x0`, the CSR is written with old | mask, mask the initial value of
`rs1` (R101). That the read side effects come before the write is an inference (R91, log 19). -/
def Obligations.CsrrsReadsAndSetsBits : Prop :=
  ∀ (n : Nat) (h : Hart n) (rd : RegNum) (csr : CsrAddr) (rs1 : RegNum), Accessible h csr →
    rs1 = 0#5 ∨ NotReadOnly h csr →
    ∃ h' : Hart n, Goes (.csrrs rd csr rs1) h h' ∧ h'.pc = h.pc + 4#n ∧
      (∀ q, readX h' q = if q = rd ∧ rd ≠ 0#5 then csrPeek h.platform csr h.cs else readX h q) ∧
      (rs1 = 0#5 → h'.cs = csrImplicit h.platform (csrReadEffect h.platform csr h.cs) [] (encode (.csrrs rd csr rs1))) ∧
      (rs1 ≠ 0#5 → h'.cs = csrImplicit h.platform
        (csrWriteEffect h.platform csr (csrReadEffect h.platform csr h.cs)
          (csrPeek h.platform csr h.cs ||| readX h rs1) (readX h rs1)) [csr] (encode (.csrrs rd csr rs1))) ∧
      (∀ a, readByte h' a = readByte h a) ∧ h'.platform = h.platform

/-- CSRRC: as CSRRS, with old & ~mask (R102; the order is an inference, log 19). -/
def Obligations.CsrrcReadsAndClearsBits : Prop :=
  ∀ (n : Nat) (h : Hart n) (rd : RegNum) (csr : CsrAddr) (rs1 : RegNum), Accessible h csr →
    rs1 = 0#5 ∨ NotReadOnly h csr →
    ∃ h' : Hart n, Goes (.csrrc rd csr rs1) h h' ∧ h'.pc = h.pc + 4#n ∧
      (∀ q, readX h' q = if q = rd ∧ rd ≠ 0#5 then csrPeek h.platform csr h.cs else readX h q) ∧
      (rs1 = 0#5 → h'.cs = csrImplicit h.platform (csrReadEffect h.platform csr h.cs) [] (encode (.csrrc rd csr rs1))) ∧
      (rs1 ≠ 0#5 → h'.cs = csrImplicit h.platform
        (csrWriteEffect h.platform csr (csrReadEffect h.platform csr h.cs)
          (csrPeek h.platform csr h.cs &&& ~~~ readX h rs1) (readX h rs1)) [csr] (encode (.csrrc rd csr rs1))) ∧
      (∀ a, readByte h' a = readByte h a) ∧ h'.platform = h.platform

/-- CSRRWI: as CSRRW, with the zero-extended immediate in place of `x[rs1]` (R110; the order is an inference,
log 19). -/
def Obligations.CsrrwiWritesTheImmediate : Prop :=
  ∀ (n : Nat) (h : Hart n) (rd : RegNum) (csr : CsrAddr) (uimm : Uimm), Accessible h csr → NotReadOnly h csr →
    ∃ h' : Hart n, Goes (.csrrwi rd csr uimm) h h' ∧ h'.pc = h.pc + 4#n ∧
      (∀ q, readX h' q = if q = rd ∧ rd ≠ 0#5 then csrPeek h.platform csr h.cs else readX h q) ∧
      h'.cs = csrImplicit h.platform
        (csrWriteEffect h.platform csr (if rd ≠ 0#5 then csrReadEffect h.platform csr h.cs else h.cs)
          (uimm.setWidth n) (BitVec.allOnes n)) [csr] (encode (.csrrwi rd csr uimm)) ∧
      (∀ a, readByte h' a = readByte h a) ∧ h'.platform = h.platform

/-- CSRRSI: as CSRRS, with the zero-extended immediate as the mask; the write is suppressed when it is zero
(R111; the order is an inference, log 19). -/
def Obligations.CsrrsiReadsAndSetsBits : Prop :=
  ∀ (n : Nat) (h : Hart n) (rd : RegNum) (csr : CsrAddr) (uimm : Uimm), Accessible h csr →
    uimm = 0#5 ∨ NotReadOnly h csr →
    ∃ h' : Hart n, Goes (.csrrsi rd csr uimm) h h' ∧ h'.pc = h.pc + 4#n ∧
      (∀ q, readX h' q = if q = rd ∧ rd ≠ 0#5 then csrPeek h.platform csr h.cs else readX h q) ∧
      (uimm = 0#5 → h'.cs = csrImplicit h.platform (csrReadEffect h.platform csr h.cs) [] (encode (.csrrsi rd csr uimm))) ∧
      (uimm ≠ 0#5 → h'.cs = csrImplicit h.platform
        (csrWriteEffect h.platform csr (csrReadEffect h.platform csr h.cs)
          (csrPeek h.platform csr h.cs ||| uimm.setWidth n) (uimm.setWidth n)) [csr] (encode (.csrrsi rd csr uimm))) ∧
      (∀ a, readByte h' a = readByte h a) ∧ h'.platform = h.platform

/-- CSRRCI: as CSRRC, with the zero-extended immediate as the mask, complemented at XLEN bits (R112; the
order is an inference, log 19). -/
def Obligations.CsrrciReadsAndClearsBits : Prop :=
  ∀ (n : Nat) (h : Hart n) (rd : RegNum) (csr : CsrAddr) (uimm : Uimm), Accessible h csr →
    uimm = 0#5 ∨ NotReadOnly h csr →
    ∃ h' : Hart n, Goes (.csrrci rd csr uimm) h h' ∧ h'.pc = h.pc + 4#n ∧
      (∀ q, readX h' q = if q = rd ∧ rd ≠ 0#5 then csrPeek h.platform csr h.cs else readX h q) ∧
      (uimm = 0#5 → h'.cs = csrImplicit h.platform (csrReadEffect h.platform csr h.cs) [] (encode (.csrrci rd csr uimm))) ∧
      (uimm ≠ 0#5 → h'.cs = csrImplicit h.platform
        (csrWriteEffect h.platform csr (csrReadEffect h.platform csr h.cs)
          (csrPeek h.platform csr h.cs &&& ~~~ uimm.setWidth n) (uimm.setWidth n)) [csr] (encode (.csrrci rd csr uimm))) ∧
      (∀ a, readByte h' a = readByte h a) ∧ h'.platform = h.platform

/-- The table of 42_csr_access_rules.md R70, row by row, as the accesses an instruction makes: a read is one access of
class device input, a write one of class device output (20_memory.md R42, R46; the recorded history is the interface of
decision D14). That the output follows the input is an inference (R91, log 14). -/
def Obligations.ReadWriteTableAsAccesses : Prop :=
  ∀ (n : Nat) (h : Hart n) (csr : CsrAddr), Accessible h csr →
    let input := inputEvent h csr
    let output := outputEvent h csr
    (NotReadOnly h csr → ∀ src : BitVec 5,
      (∃ h', Goes (.csrrw 0#5 csr src) h h' ∧ h'.events = h.events ++ [output]) ∧
      (∀ rd, rd ≠ 0#5 → ∃ h', Goes (.csrrw rd csr src) h h' ∧ h'.events = h.events ++ [input, output]) ∧
      (∃ h', Goes (.csrrwi 0#5 csr src) h h' ∧ h'.events = h.events ++ [output]) ∧
      (∀ rd, rd ≠ 0#5 → ∃ h', Goes (.csrrwi rd csr src) h h' ∧ h'.events = h.events ++ [input, output]) ∧
      (∀ rd, src ≠ 0#5 → ∃ h', Goes (.csrrs rd csr src) h h' ∧ h'.events = h.events ++ [input, output]) ∧
      (∀ rd, src ≠ 0#5 → ∃ h', Goes (.csrrc rd csr src) h h' ∧ h'.events = h.events ++ [input, output]) ∧
      (∀ rd, src ≠ 0#5 → ∃ h', Goes (.csrrsi rd csr src) h h' ∧ h'.events = h.events ++ [input, output]) ∧
      (∀ rd, src ≠ 0#5 → ∃ h', Goes (.csrrci rd csr src) h h' ∧ h'.events = h.events ++ [input, output])) ∧
    (∀ rd : RegNum,
      (∃ h', Goes (.csrrs rd csr 0#5) h h' ∧ h'.events = h.events ++ [input]) ∧
      (∃ h', Goes (.csrrc rd csr 0#5) h h' ∧ h'.events = h.events ++ [input]) ∧
      (∃ h', Goes (.csrrsi rd csr 0#5) h h' ∧ h'.events = h.events ++ [input]) ∧
      (∃ h', Goes (.csrrci rd csr 0#5) h h' ∧ h'.events = h.events ++ [input]))

/-- On a plain CSR (10_state.md R20) each instruction that writes leaves, in the writable bits, the operand (write), the
old value with the operand's bits set (set) or cleared (clear), and the old value in the others. -/
def Obligations.PlainCsrValueAfterAWrite : Prop :=
  ∀ (n : Nat) (h : Hart n) (csr : CsrAddr) (cell width : Nat) (mask : Word n),
    csrAt h.platform csr = some (plainCsr csr cell width mask) → mask &&& ~~~ lowOnes n width = 0#n → 1 ≤ n →
    let old := csrPeek h.platform csr h.cs
    ∀ (rd : RegNum) (src : BitVec 5),
      (∃ h', Goes (.csrrw rd csr src) h h' ∧
        csrPeek h'.platform csr h'.cs = (old &&& ~~~ mask) ||| (readX h src &&& mask)) ∧
      (∃ h', Goes (.csrrwi rd csr src) h h' ∧
        csrPeek h'.platform csr h'.cs = (old &&& ~~~ mask) ||| (src.setWidth n &&& mask)) ∧
      (src ≠ 0#5 →
        (∃ h', Goes (.csrrs rd csr src) h h' ∧ csrPeek h'.platform csr h'.cs = old ||| (readX h src &&& mask)) ∧
        (∃ h', Goes (.csrrc rd csr src) h h' ∧ csrPeek h'.platform csr h'.cs = old &&& ~~~ (readX h src &&& mask)) ∧
        (∃ h', Goes (.csrrsi rd csr src) h h' ∧ csrPeek h'.platform csr h'.cs = old ||| (src.setWidth n &&& mask)) ∧
        (∃ h', Goes (.csrrci rd csr src) h h' ∧ csrPeek h'.platform csr h'.cs = old &&& ~~~ (src.setWidth n &&& mask)))

/-- A set or clear changes a bit exactly where the mask has a one and the bit is writable, and there to one or to zero,
whatever else the CSR's writes do; the other bits keep their value (42_csr_access_rules.md R87, R88). The CSR has no
read side effect, is read as it is stored, and stores the presented value; its platform is well formed. -/
def Obligations.SetAndClearChangeExactlyTheWritableMaskBits : Prop :=
  ∀ (n : Nat) (h : Hart n) (csr : CsrAddr) (d : CsrDesc n) (rd : RegNum) (src : BitVec 5) (b : Nat),
    h.platform.wellFormed = true → csrAt h.platform csr = some d → d.onRead = [] → d.shown = .cell d.cell →
    d.stored = .value → Accessible h csr → NotReadOnly h csr → src ≠ 0#5 →
    let old := (csrPeek h.platform csr h.cs).getLsbD b
    let can := (csrWritable h.platform csr h.cs).getLsbD b
    (∃ h', Goes (.csrrs rd csr src) h h' ∧
      (csrPeek h'.platform csr h'.cs).getLsbD b = (if can ∧ (readX h src).getLsbD b then true else old)) ∧
    (∃ h', Goes (.csrrc rd csr src) h h' ∧
      (csrPeek h'.platform csr h'.cs).getLsbD b = (if can ∧ (readX h src).getLsbD b then false else old)) ∧
    (∃ h', Goes (.csrrsi rd csr src) h h' ∧
      (csrPeek h'.platform csr h'.cs).getLsbD b = (if can ∧ b < 5 ∧ src.getLsbD b then true else old)) ∧
    (∃ h', Goes (.csrrci rd csr src) h h' ∧
      (csrPeek h'.platform csr h'.cs).getLsbD b = (if can ∧ b < 5 ∧ src.getLsbD b then false else old))

/-- CSRRS and CSRRC with a register other than `x0` that holds zero do write: the CSR is presented with its old value,
the whole-register side effects of the write happen and no field side effect does, whatever the fields would do; on a
read-only CSR they raise. What suppresses the write is the `rs1` FIELD being `x0`; for CSRRSI and CSRRCI it is the
immediate being zero (42_csr_access_rules.md R73). Inferences, not R73's words: the read side effects come before the
write (R91, log 19), the input before the output (log 14), and the order inside one write (log 17). -/
def Obligations.ZeroInARegisterStillWrites : Prop :=
  ∀ (n : Nat) (h : Hart n) (csr : CsrAddr) (d : CsrDesc n) (rd rs1 : RegNum),
    csrAt h.platform csr = some d → Accessible h csr → rs1 ≠ 0#5 → readX h rs1 = 0#n →
    let input := inputEvent h csr
    let output := outputEvent h csr
    (NotReadOnly h csr →
      let base := csrReadEffect h.platform csr h.cs
      let written := applyEffect { value := csrPeek h.platform csr h.cs } d.onWrite
        (storeIn d { value := csrPeek h.platform csr h.cs } base)
      (∃ h', Goes (.csrrs rd csr rs1) h h' ∧ h'.events = h.events ++ [input, output] ∧
        h'.cs = csrImplicit h.platform written [csr] (encode (.csrrs rd csr rs1))) ∧
      (∃ h', Goes (.csrrc rd csr rs1) h h' ∧ h'.events = h.events ++ [input, output] ∧
        h'.cs = csrImplicit h.platform written [csr] (encode (.csrrc rd csr rs1))) ∧
      (∀ uimm : Uimm,
        (∃ h', Goes (.csrrsi rd csr uimm) h h' ∧
          h'.events = h.events ++ (if uimm = 0#5 then [input] else [input, output])) ∧
        (∃ h', Goes (.csrrci rd csr uimm) h h' ∧
          h'.events = h.events ++ (if uimm = 0#5 then [input] else [input, output])))) ∧
    (csrReadOnly h.platform csr = true → Raises (.csrrs rd csr rs1) h ∧ Raises (.csrrc rd csr rs1) h) ∧
    (∃ h', Goes (.csrrs rd csr 0#5) h h' ∧ h'.events = h.events ++ [input]) ∧
    (∃ h', Goes (.csrrc rd csr 0#5) h h' ∧ h'.events = h.events ++ [input])

/-- CSRRW and CSRRWI write in every case; with `rs1` = `x0` or a zero immediate they write zero, in the bits that the
CSR lets a write change, and on a read-only CSR the attempt raises (42_csr_access_rules.md R74). Inferences, not R74's
words: the read side effects come before the write (R91, log 19) and the output event comes last (log 14). -/
def Obligations.WriteFormsWriteZeroOperands : Prop :=
  ∀ (n : Nat) (h : Hart n) (csr : CsrAddr) (rd : RegNum), Accessible h csr →
    (NotReadOnly h csr →
      let base := if rd ≠ 0#5 then csrReadEffect h.platform csr h.cs else h.cs
      let written := csrWriteEffect h.platform csr base 0#n (BitVec.allOnes n)
      (∃ h', Goes (.csrrw rd csr 0#5) h h' ∧ h'.cs = csrImplicit h.platform written [csr] (encode (.csrrw rd csr 0#5))) ∧
      (∃ h', Goes (.csrrwi rd csr 0#5) h h' ∧
        h'.cs = csrImplicit h.platform written [csr] (encode (.csrrwi rd csr 0#5))) ∧
      (∀ src : BitVec 5,
        (∃ h', Goes (.csrrw rd csr src) h h' ∧ h'.events.getLast? = some (outputEvent h csr)) ∧
        (∃ h', Goes (.csrrwi rd csr src) h h' ∧ h'.events.getLast? = some (outputEvent h csr)))) ∧
    (csrReadOnly h.platform csr = true → ∀ src, Raises (.csrrw rd csr src) h ∧ Raises (.csrrwi rd csr src) h)

/-- The set and clear forms read the CSR and cause its read side effects in every case, whatever the `rd` and `rs1` or
`uimm` fields; only CSRRW and CSRRWI have a no-read case, `rd` = `x0`, in which they neither read the CSR nor cause its
read side effects: with any other read side effects in their place the outcome is the same
(42_csr_access_rules.md R75). Inferences, not R75's words: the read side effects come before the write (R91, log 19) and
the input is the first new event (log 14). -/
def Obligations.ReadSideEffectsHappenOnEveryReadAndOnlyThen : Prop :=
  ∀ (n : Nat) (h : Hart n) (rd : RegNum) (csr : CsrAddr) (src : BitVec 5) (effect : List (Assign n)), Accessible h csr →
    let read := csrReadEffect h.platform csr h.cs
    let p' := changeCsr h.platform csr fun d => { d with onRead := effect }
    (src = 0#5 ∨ NotReadOnly h csr →
      ∀ i ∈ [Instr.csrrs rd csr src, .csrrc rd csr src, .csrrsi rd csr src, .csrrci rd csr src],
        ∃ h', Goes i h h' ∧ h'.events[h.events.length]? = some (inputEvent h csr) ∧
          (src = 0#5 → h'.cs = csrImplicit h.platform read [] (encode i)) ∧
          (src ≠ 0#5 → h'.cs = csrImplicit h.platform (csrWriteEffect h.platform csr read
            (presentedValue (instrOp i) (csrPeek h.platform csr h.cs) (instrOperand h i))
            (instrOperand h i)) [csr] (encode i))) ∧
    (NotReadOnly h csr → ∀ i ∈ [Instr.csrrw 0#5 csr src, .csrrwi 0#5 csr src],
      ∃ h', Goes i h h' ∧ Goes i (onPlatform h p') (onPlatform h' p') ∧ h'.events = h.events ++ [outputEvent h csr])

/-- CSRRS and CSRRC with `rs1` = `x0`, CSRRSI and CSRRCI with a zero immediate cause no write side effect of any kind:
with any other way of storing, other write and field side effects, other writable bits and either answer to read-only,
the outcome is the same (42_csr_access_rules.md R76, R77). -/
def Obligations.NoWriteNoWriteSideEffect : Prop :=
  ∀ (n : Nat) (h : Hart n) (i : Instr) (effect : List (Assign n)) (fields : List (FieldEffect n)) (e e' : CsrExpr n)
    (ro : Bool), writesCsr i = false → Accessible h (instrCsr i) →
    let p' := changeCsr h.platform (instrCsr i) fun d =>
      { d with onWrite := effect, fields := fields, stored := e, writableBits := e', readOnly := ro }
    ∃ h', Goes i h h' ∧ Goes i (onPlatform h p') (onPlatform h' p')

/-- On a well-formed platform CSRRW and CSRRWI perform the side effects of all fields; the set and clear forms only
those of the fields in which the `rs1` or `uimm` value has at least one bit set, whether or not the field's value
changes; the whole-register side effects happen in every case (42_csr_access_rules.md R79). Inferences, not R79's words: the read side effects come
before the write (R91, section 6 of that file, log 19) and the order inside one write (log 17). -/
def Obligations.FieldSideEffectsOfTheTouchedFields : Prop :=
  ∀ (n : Nat) (h : Hart n) (csr : CsrAddr) (d : CsrDesc n) (i : Instr),
    h.platform.wellFormed = true → csrAt h.platform csr = some d → instrCsr i = csr → writesCsr i = true →
    Accessible h csr → NotReadOnly h csr →
    let old := csrPeek h.platform csr h.cs
    let inp : Inputs n :=
      { value := presentedValue (instrOp i) old (instrOperand h i), touched := touchedMask (instrOp i) (instrOperand h i) }
    let base := if readsCsr i then applyEffect {} d.onRead h.cs else h.cs
    let stored := applyEffect inp d.onWrite (storeIn d inp base)
    let acting := if instrOp i = .write then d.fields
      else d.fields.filter fun f => hasBitIn (instrOperand h i) f.hi f.lo
    ∃ h', Goes i h h' ∧
      h'.cs = csrImplicit h.platform (acting.foldl (fun cs f => applyEffect inp f.effect cs) stored) [csr] (encode i)

/-! ### Exceptions (60_exceptions.md) -/

/-- An instruction that writes a read-only CSR raises, whatever it would write; one that does not write it does not
raise (42_csr_access_rules.md R76) and reads it normally: `rd` receives the value and pc advances by 4 (log 4).
Inferences, not R76's words: that the writing forms raise is derived from the exemption (60_exceptions.md R121, decision
D8), and pc + 4 is the model's (log 4). -/
def Obligations.ReadOnlyCsrRaisesOnWritesOnly : Prop :=
  ∀ (n : Nat) (h : Hart n) (csr : CsrAddr) (rd : RegNum) (src : BitVec 5),
    Accessible h csr → csrReadOnly h.platform csr = true →
    (Raises (.csrrw rd csr src) h ∧ Raises (.csrrwi rd csr src) h) ∧
    (src ≠ 0#5 → Raises (.csrrs rd csr src) h ∧ Raises (.csrrc rd csr src) h ∧
      Raises (.csrrsi rd csr src) h ∧ Raises (.csrrci rd csr src) h) ∧
    (∀ i ∈ [Instr.csrrs rd csr 0#5, .csrrc rd csr 0#5, .csrrsi rd csr 0#5, .csrrci rd csr 0#5],
      ∃ h', Goes i h h' ∧ h'.pc = h.pc + 4#n ∧
        (∀ q, readX h' q = if q = rd ∧ rd ≠ 0#5 then csrPeek h.platform csr h.cs else readX h q))

/-- Any of the six on an address at which no CSR exists raises, in every case (60_exceptions.md R122, decision D6). -/
def Obligations.MissingCsrRaises : Prop :=
  ∀ (n : Nat) (h : Hart n) (i : Instr), csrExists h.platform (instrCsr i) h.cs = false → Raises i h

/-- Any of the six on a CSR that the hart may not access in its state raises, in every case (60_exceptions.md R123,
decision D7). -/
def Obligations.FailedPrivilegeCheckRaises : Prop :=
  ∀ (n : Nat) (h : Hart n) (i : Instr), csrPrivOk h.platform (instrCsr i) h.cs = false → Raises i h

/-- What raising does (60_exceptions.md R124, R125; log 10): the instruction has no effect of its own, and control
passes to TakeTrap with the cause 2, the instruction's pc and its word. With no trap layer this is a terminal fault;
with one, registers, memory and history are as before, the cells are what the platform's trap layer saves, and pc is
its target. -/
def Obligations.RaiseHandsOverToTakeTrap : Prop :=
  ∀ (n : Nat) (h : Hart n) (i : Instr),
    accessAllowed h (instrCsr i) (writesCsr i) = false →
    (h.platform.trap = .terminal →
      exec i { xlen := n, hart := h } = .fault (.illegalInstruction h.pc.toNat (encode i))) ∧
    (∀ saves target, h.platform.trap = .handler saves target →
      ∃ h', Goes i h h' ∧ h'.x = h.x ∧ h'.mem = h.mem ∧ h'.events = h.events ∧ h'.platform = h.platform ∧
        h'.cs = applyEffect { instr := encode i, epc := h.pc, cause := 2#n } saves h.cs ∧
        h'.pc = evalExpr { instr := encode i, epc := h.pc, cause := 2#n } h.cs target)

/-- The only exception an instruction can raise is the illegal-instruction exception, and an instruction has exactly
one outcome: it goes on, or it stops with that exception, with its own pc and word, on a hart without a trap layer. It
is never refused (60_exceptions.md R120, 42_csr_access_rules.md R92). -/
def Obligations.AnInstructionGoesOnOrRaisesIllegal : Prop :=
  ∀ (n : Nat) (h : Hart n) (i : Instr),
    (∃ h' : Hart n, Goes i h h') ∨
    (h.platform.trap = .terminal ∧ accessAllowed h (instrCsr i) (writesCsr i) = false ∧
      exec i { xlen := n, hart := h } = .fault (.illegalInstruction h.pc.toNat (encode i)))

/-! ### CSRs that execution modifies (42_csr_access_rules.md section 4) -/

/-- A CSR that the instruction writes is, after it, what the write made it: whatever implicit modifications the
platform makes, that CSR's own is suppressed; and what the instruction reads is the value before it (20_memory.md R37,
42_csr_access_rules.md R84). An inference, not these rules' words: the write acts on the state after the read side
effects (R91, log 19). -/
def Obligations.WriteReplacesTheImplicitUpdate : Prop :=
  ∀ (n : Nat) (h : Hart n) (i : Instr), Accessible h (instrCsr i) → writesCsr i = false ∨ NotReadOnly h (instrCsr i) →
    let csr := instrCsr i
    let old := csrPeek h.platform csr h.cs
    let base := if readsCsr i then csrReadEffect h.platform csr h.cs else h.cs
    ∃ h', Goes i h h' ∧
      (readsCsr i = true → instrRd i ≠ 0#5 → readX h' (instrRd i) = old) ∧
      (writesCsr i = true → csrPeek h'.platform csr h'.cs = csrPeek h.platform csr
        (csrWriteEffect h.platform csr base (presentedValue (instrOp i) old (instrOperand h i))
          (touchedMask (instrOp i) (instrOperand h i))))

/-- A counter: a plain CSR of full width whose cell every instruction increments. Read, it gives the value before the
instruction and is incremented after; written, it holds exactly the value written, this instruction's increment being
suppressed (42_csr_access_rules.md R84, R85, 70_reset_and_hazards.md R157). -/
def Obligations.CounterReadsBeforeAndWriteReplacesIncrement : Prop :=
  ∀ (n : Nat) (h : Hart n) (csr : CsrAddr) (k : Nat) (rd rs1 : RegNum), 1 ≤ n →
    csrAt h.platform csr = some (plainCsr csr k n (BitVec.allOnes n)) → h.platform.implicits = [increment k] →
    rd ≠ 0#5 →
    (∃ h', Goes (.csrrs rd csr 0#5) h h' ∧ readX h' rd = csrPeek h.platform csr h.cs ∧
      csrPeek h'.platform csr h'.cs = csrPeek h.platform csr h.cs + 1#n) ∧
    (∃ h', Goes (.csrrw rd csr rs1) h h' ∧ readX h' rd = csrPeek h.platform csr h.cs ∧
      csrPeek h'.platform csr h'.cs = readX h rs1) ∧
    (∃ h', Goes (.csrrw 0#5 csr rs1) h h' ∧ csrPeek h'.platform csr h'.cs = readX h rs1)

/-- The value written by one instruction is the value read by the next, for any of the six as the writer and any that
reads as the reader, on any CSR that is stored plainly, whatever execution modifies implicitly (42_csr_access_rules.md
R86; 70_reset_and_hazards.md R155). The hart between the two is the one a step leaves: the moment has passed. -/
def Obligations.ValueWrittenIsReadByTheNextInstruction : Prop :=
  ∀ (n : Nat) (h : Hart n) (csr : CsrAddr) (cell width : Nat) (mask : Word n) (i j : Instr),
    csrAt h.platform csr = some (plainCsr csr cell width mask) → mask &&& ~~~ lowOnes n width = 0#n → 1 ≤ n →
    instrCsr i = csr → writesCsr i = true → instrCsr j = csr → readsCsr j = true → instrRd j ≠ 0#5 →
    ∃ h1 h2 : Hart n, Goes i h h1 ∧ Goes j (passMoment h1) h2 ∧
      readX h2 (instrRd j) =
        (csrPeek h.platform csr h.cs &&& ~~~ mask) |||
          (presentedValue (instrOp i) (csrPeek h.platform csr h.cs) (instrOperand h i) &&& mask)

/-! ### The laws of a CsrFile (10_state.md R16), which every well-formed platform obeys -/

/-- Law L-zero: a read gives zero above the CSR's width (10_state.md R15). -/
def Obligations.BitsAboveTheWidthReadZero : Prop :=
  ∀ (n : Nat) (p : Platform n) (a : CsrAddr) (d : CsrDesc n) (cs : CS n) (b : Nat),
    csrAt p a = some d → d.width ≤ b → (csrPeek p a cs).getLsbD b = false ∧ (csrWritable p a cs).getLsbD b = false

/-- Law L-ro on a well-formed platform: a write changes no bit that is not writable, whatever of its side effects a
well-formed platform lets it have. That such a platform's write and field side effects assign no cell the CSR's own
value is read from, and that the value is bitwise in its own cell, are the model's sufficient conditions (log 28, DESIGN
CHOICE). -/
def Obligations.WriteLeavesBitsThatAreNotWritable : Prop :=
  ∀ (n : Nat) (p : Platform n) (a : CsrAddr) (cs : CS n) (v t : Word n) (b : Nat), p.wellFormed = true →
    (csrWritable p a cs).getLsbD b = false →
    (csrPeek p a (csrWriteEffect p a cs v t)).getLsbD b = (csrPeek p a cs).getLsbD b

/-- Law L-set on a well-formed platform (in the sense of log 28, DESIGN CHOICE): a writable bit takes the presented bit,
where the CSR's definition does not legalise and a read returns what is stored. -/
def Obligations.WriteStoresInWritableBits : Prop :=
  ∀ (n : Nat) (p : Platform n) (a : CsrAddr) (d : CsrDesc n) (cs : CS n) (v t : Word n) (b : Nat), p.wellFormed = true →
    csrAt p a = some d → d.shown = .cell d.cell → d.stored = .value → (csrWritable p a cs).getLsbD b = true →
    (csrPeek p a (csrWriteEffect p a cs v t)).getLsbD b = v.getLsbD b

/-- Law L-skip: the implicit update leaves every CSR whose address is in the set as it is, and nothing is skipped where
nothing is in the set; an implicit assignment to a cell that backs no CSR in the set is still made
(42_csr_access_rules.md R85), here one whose expression looks at no other cell. That a CSR in the set is left as it is
at EVERY address at which the same value is seen is the model's inference (log 18, DEDUCED), not the law's words. -/
def Obligations.ImplicitUpdateSkipsTheWrittenCsrs : Prop :=
  ∀ (n : Nat) (p : Platform n) (cs : CS n) (w : List CsrAddr) (info : InstrWord),
    (∀ (a b : CsrAddr) (d e : CsrDesc n), a ∈ w → csrAt p a = some d → csrAt p b = some e → e.shown = d.shown →
      csrPeek p b (csrImplicit p cs w info) = csrPeek p b cs) ∧
    csrImplicit p cs [] info = applyEffect { instr := info } p.implicits cs ∧
    (∀ (before after : List (Assign n)) (act : Assign n), p.implicits = before ++ act :: after →
      sparesCell act.cell before = true → sparesCell act.cell after = true →
      (∀ j, mentionsCell j act.expr = true → j = act.cell) →
      (∀ a ∈ w, ∀ d, csrAt p a = some d → d.cell ≠ act.cell ∧ mentionsCell act.cell d.shown = false) →
      (csrImplicit p cs w info).cell act.cell = evalExpr { instr := info } cs act.expr)

/-- (From a NOTE, 10_state.md R22.) On a CSR of a standard's shape, with no read side effects and no field side effects,
the four pure reads change nothing in the CSR file beside the implicit update; and a write, with whatever write side
effects the CSR has, is the same under every mask, provided that neither what it stores nor its whole-register side
effects look at the mask. -/
def Obligations.StandardCsrReadsAndMasksHaveNoSideEffect : Prop :=
  ∀ (n : Nat) (h : Hart n) (csr : CsrAddr) (d : CsrDesc n) (rd : RegNum),
    csrAt h.platform csr = some d → d.standardShape = true →
    (Accessible h csr →
      ∀ i ∈ [Instr.csrrs rd csr 0#5, .csrrc rd csr 0#5, .csrrsi rd csr 0#5, .csrrci rd csr 0#5],
        ∃ h', Goes i h h' ∧ h'.cs = csrImplicit h.platform h.cs [] (encode i)) ∧
    (looksTouched d.stored = false → (∀ a ∈ d.onWrite, looksTouched a.expr = false) →
      ∀ (cs : CS n) (v t t' : Word n), csrWriteEffect h.platform csr cs v t = csrWriteEffect h.platform csr cs v t')

/-- The source's light bulb (42_csr_access_rules.md R78): a read lights it, a write of an odd value turns it off, of an
even value does nothing, and of both in one instruction the read comes first (R91, an inference, log 19). The
platform's implicit update does not touch the bulb. -/
def Obligations.BulbReadLightsAndOddWriteTurnsOff : Prop :=
  ∀ (n : Nat) (h : Hart n) (rd rs1 : RegNum), 1 ≤ n →
    csrAt h.platform 0x7C0#12 = some (bulbCsr n) → sparesCell cellLit h.platform.implicits = true →
    (∃ h', Goes (.csrrs rd 0x7C0#12 0#5) h h' ∧ h'.cs.cell cellLit = 1#n) ∧
    (∃ h', Goes (.csrrw 0#5 0x7C0#12 rs1) h h' ∧
      h'.cs.cell cellLit = if (readX h rs1).getLsbD 0 then 0#n else h.cs.cell cellLit) ∧
    (rd ≠ 0#5 → ∃ h', Goes (.csrrw rd 0x7C0#12 rs1) h h' ∧
      h'.cs.cell cellLit = if (readX h rs1).getLsbD 0 then 0#n else 1#n)

/-- The register operand of CSRRW, CSRRS and CSRRC is the initial value of `rs1`, read before `rd` is written, also when
`rd` and `rs1` are the same register: CSRRW then swaps. This is R89 (42_csr_access_rules.md) as it is seen on one kind of
CSR, the plain one of full width (10_state.md R20, R87), with `rd` and `rs1` not `x0`; the statements of CSRRW, CSRRS and
CSRRC above say it of every CSR and every `rd` and `rs1`. -/
def Obligations.SourceRegisterIsReadBeforeTheDestinationIsWritten : Prop :=
  ∀ (n : Nat) (h : Hart n) (csr : CsrAddr) (cell : Nat) (rd rs1 : RegNum), 1 ≤ n →
    csrAt h.platform csr = some (plainCsr csr cell n (BitVec.allOnes n)) → rd ≠ 0#5 → rs1 ≠ 0#5 →
    let old := csrPeek h.platform csr h.cs
    (∃ h', Goes (.csrrw rd csr rs1) h h' ∧ readX h' rd = old ∧ csrPeek h'.platform csr h'.cs = readX h rs1) ∧
    (∃ h', Goes (.csrrs rd csr rs1) h h' ∧ readX h' rd = old ∧ csrPeek h'.platform csr h'.cs = old ||| readX h rs1) ∧
    (∃ h', Goes (.csrrc rd csr rs1) h h' ∧ readX h' rd = old ∧ csrPeek h'.platform csr h'.cs = old &&& ~~~ readX h rs1)

/-- The immediate forms read no integer register: on two harts that differ in their integer registers alone they do
the same to the CSR file and the history, go to the same pc, and leave the same value in `rd`, where it is written
(10_state.md R12). -/
def Obligations.ImmediateFormsReadNoIntegerRegister : Prop :=
  ∀ (n : Nat) (h : Hart n) (x : Vector (Word n) 32) (rd : RegNum) (csr : CsrAddr) (uimm : Uimm),
    ∀ i ∈ [Instr.csrrwi rd csr uimm, .csrrsi rd csr uimm, .csrrci rd csr uimm],
      accessAllowed h csr (writesCsr i) = true →
      ∃ h' k', Goes i h h' ∧ Goes i { h with x := x } k' ∧ k'.cs = h'.cs ∧ k'.pc = h'.pc ∧ k'.events = h'.events ∧
        (readsCsr i = true → readX k' rd = readX h' rd) ∧ (readsCsr i = false → k'.x = x ∧ h'.x = h.x)

/-- The immediate is zero-extended to XLEN bits, never sign-extended: CSRRWI with 31 leaves 31 in a plain CSR of full
width, CSRRCI with 31 keeps every bit from 5 up (30_encoding.md R56, 41_csr_immediate.md R110, R112). -/
def Obligations.ImmediateIsZeroExtended : Prop :=
  ∀ (n : Nat) (h : Hart n) (csr : CsrAddr) (cell : Nat) (rd : RegNum) (uimm : Uimm), xlenOk n = true →
    csrAt h.platform csr = some (plainCsr csr cell n (BitVec.allOnes n)) →
    (∃ h', Goes (.csrrwi rd csr uimm) h h' ∧ (csrPeek h'.platform csr h'.cs).toNat = uimm.toNat) ∧
    (uimm ≠ 0#5 → ∀ b, 5 ≤ b →
      (∃ h', Goes (.csrrsi rd csr uimm) h h' ∧
        (csrPeek h'.platform csr h'.cs).getLsbD b = (csrPeek h.platform csr h.cs).getLsbD b) ∧
      (∃ h', Goes (.csrrci rd csr uimm) h h' ∧
        (csrPeek h'.platform csr h'.cs).getLsbD b = (csrPeek h.platform csr h.cs).getLsbD b))

/-! ### Frames -/

/-- The frame of all six, for an access that is allowed: no integer register but `rd` changes and `x0` stays zero; every
byte of memory reads as before (no form stores to memory); the history grows by this access alone, one input where the
instruction reads, then one output where it writes (their order is an inference, log 14); the parameters stay
(10_state.md R12, 20_memory.md R31). There is no flag to keep (10_state.md R24). -/
def Obligations.InstructionsLeaveOtherRegistersAndMemory : Prop :=
  ∀ (n : Nat) (h h' : Hart n) (i : Instr), accessAllowed h (instrCsr i) (writesCsr i) = true → Goes i h h' →
    (∀ q, q ≠ instrRd i → readX h' q = readX h q) ∧ readX h' 0#5 = 0#n ∧
    (readsCsr i = false → ∀ q, readX h' q = readX h q) ∧
    (∀ a, readByte h' a = readByte h a) ∧ h'.platform = h.platform ∧ h'.cs.moment = h.cs.moment ∧
    h'.events = h.events ++ ((if readsCsr i then [inputEvent h (instrCsr i)] else []) ++
      (if writesCsr i then [outputEvent h (instrCsr i)] else []))

/-- The frame on the CSR file: a cell changes only if it is the written CSR's own, or is assigned by the read side
effects of a CSR that is read, by the write or field side effects of a CSR that is written, or by the implicit update
(42_csr_access_rules.md R77). So an instruction changes no other CSR that these do not name. -/
def Obligations.InstructionsLeaveOtherCells : Prop :=
  ∀ (n : Nat) (h h' : Hart n) (i : Instr) (d : CsrDesc n) (k : Nat),
    csrAt h.platform (instrCsr i) = some d → accessAllowed h (instrCsr i) (writesCsr i) = true → Goes i h h' →
    (readsCsr i = true → sparesCell k d.onRead = true) →
    (writesCsr i = true → d.cell ≠ k ∧ sparesCell k d.onWrite = true ∧ ∀ f ∈ d.fields, sparesCell k f.effect = true) →
    sparesCell k h.platform.implicits = true →
    h'.cs.cell k = h.cs.cell k

/-! ### Invariants -/

/-- The reset hart of every XLEN that holds the fixture's 8-bit CSRs satisfies the invariant: the fixture is a well-formed platform, memory
and cells are canonical, the history is empty. The reset values themselves are the model's choice (log 8, log 9). -/
def Obligations.ResetMeetsTheInvariant : Prop :=
  HartInv State.reset.hart ∧ ∀ n, 8 ≤ n → HartInv (Hart.reset n)

/-- Every step keeps the invariant: the platform stays well formed, memory and the cells of the CSR file stay
canonical, and the history stays one of this hart, in program order, all of it in the past (20_memory.md R36, R46). -/
def Obligations.EveryStepKeepsTheInvariant : Prop :=
  ∀ (s s' : State), HartInv s.hart → step s = .next s' → HartInv s'.hart

/-- No step changes XLEN or a parameter of the hart, and no step changes memory: no instruction of the extension stores
(00_scope.md R2 to R7, 20_memory.md R31, R47). The recorded history (20_memory.md R46, log 14) only grows, and the
moment, the model's own step counter and no state of the spec's (log 13, DESIGN CHOICE), passes by one. -/
def Obligations.NoStepChangesParametersOrMemory : Prop :=
  ∀ (n : Nat) (h : Hart n) (s' : State), step { xlen := n, hart := h } = .next s' →
    ∃ h' : Hart n, s' = { xlen := n, hart := h' } ∧ h'.platform = h.platform ∧ (∀ a, readByte h' a = readByte h a) ∧
      (∃ more, h'.events = h.events ++ more) ∧ h'.cs.moment = h.cs.moment + 1

/-- On a hart without a trap layer a step that goes on adds 4 to pc, modulo 2^XLEN, and leaves it aligned as IALIGN
asks: no instruction makes a misaligned pc (10_state.md R13, 20_memory.md R33). -/
def Obligations.StepAdvancesPcByFourAndKeepsItAligned : Prop :=
  ∀ (n : Nat) (h h' : Hart n), xlenOk n = true → h.platform.trap = .terminal →
    step { xlen := n, hart := h } = .next { xlen := n, hart := h' } →
    h'.pc = h.pc + 4#n ∧ pcAligned h'.platform h'.pc = true

/-- What passes between two instructions changes nothing of a CSR whose value does not come from outside; of one with
bits driven from outside, no other bit (60_exceptions.md R129; the model's form, log 12). -/
def Obligations.BetweenInstructionsOnlyDrivenBitsChange : Prop :=
  ∀ (n : Nat) (h : Hart n) (a : CsrAddr) (d : CsrDesc n), csrAt h.platform a = some d →
    (looksOutside d.shown = false →
      csrPeek (passMoment h).platform a (passMoment h).cs = csrPeek h.platform a h.cs) ∧
    (∀ (k signal : Nat) (mask : Word n) (b : Nat), d.shown = drivenFrom k signal mask → mask.getLsbD b = false →
      (csrPeek (passMoment h).platform a (passMoment h).cs).getLsbD b = (csrPeek h.platform a h.cs).getLsbD b)

/-- An explicit read returns the state before the instruction, and an explicit write suppresses and overrides whatever
implicit modification of the same CSR the instruction would make: on two harts that differ in the platform's implicit
modifications alone, the value read and the value of the written CSR afterwards are the same (20_memory.md R37,
42_csr_access_rules.md R84). -/
def Obligations.WrittenCsrDoesNotDependOnTheImplicitUpdate : Prop :=
  ∀ (n : Nat) (h : Hart n) (i : Instr) (other : List (Assign n)),
    Accessible h (instrCsr i) → writesCsr i = false ∨ NotReadOnly h (instrCsr i) →
    let csr := instrCsr i
    let old := csrPeek h.platform csr h.cs
    ∃ h' k' : Hart n, Goes i h h' ∧ Goes i (onPlatform h { h.platform with implicits := other }) k' ∧
      (readsCsr i = true → instrRd i ≠ 0#5 → readX h' (instrRd i) = old ∧ readX k' (instrRd i) = old) ∧
      (writesCsr i = true → csrPeek k'.platform csr k'.cs = csrPeek h'.platform csr h'.cs)

/-- The read side effects of a CSR occur exactly when an instruction reads it, its write side effects exactly when an
instruction writes it, by the table of R70 as it stands (42_csr_access_rules.md R77): CSRRW and CSRRWI with `rd` = `x0`
do not read, the set and clear forms with `rs1` = `x0` or a zero immediate do not write, every other case reads and
writes. An access that does not happen leaves every cell alone that nothing else assigns, whatever side effects the CSR
has; one that happens leaves the mark that only its side effects make. No order of the effects is said or used. -/
def Obligations.SideEffectsOccurExactlyWhenTheAccessDoes : Prop :=
  ∀ (n : Nat) (h : Hart n) (i : Instr) (d : CsrDesc n) (k : Nat) (v : Word n),
    let noRead := instrOp i = .write ∧ instrRd i = 0#5
    let noWrite := instrOp i ≠ .write ∧ instrSrc i = 0#5
    csrAt h.platform (instrCsr i) = some d → Accessible h (instrCsr i) → noWrite ∨ NotReadOnly h (instrCsr i) →
    sparesCell k h.platform.implicits = true →
    ∃ h' : Hart n, Goes i h h' ∧
      (d.cell ≠ k → sparesCell k d.onWrite = true → (∀ f ∈ d.fields, sparesCell k f.effect = true) →
        (noRead → h'.cs.cell k = h.cs.cell k) ∧
        (¬noRead → marksCell k v d.onRead = true → h'.cs.cell k = v)) ∧
      (sparesCell k d.onRead = true →
        (noWrite → h'.cs.cell k = h.cs.cell k) ∧
        (¬noWrite → d.cell ≠ k → marksCell k v d.onWrite = true → (∀ f ∈ d.fields, sparesCell k f.effect = true) →
          h'.cs.cell k = v))

/-- CSRRW and CSRRWI perform the side effects of all fields of the CSR they write; the set and clear forms that of a
field only if the `rs1` or `uimm` value has at least one bit set among its bit positions, whatever the bits of the field
hold, so none under a mask of all zeros; the whole-register side effects happen in each of these cases
(42_csr_access_rules.md R79). Seen through a mark that only one field's, or only the whole-register, side effects make;
no order of the effects is said or used. -/
def Obligations.AFieldActsExactlyWhenItIsTouched : Prop :=
  ∀ (n : Nat) (h : Hart n) (i : Instr) (d : CsrDesc n),
    csrAt h.platform (instrCsr i) = some d → Accessible h (instrCsr i) → NotReadOnly h (instrCsr i) →
    instrOp i = .write ∨ instrSrc i ≠ 0#5 →
    ∃ h' : Hart n, Goes i h h' ∧
      ∀ (k : Nat) (v : Word n), d.cell ≠ k → sparesCell k d.onRead = true → sparesCell k h.platform.implicits = true →
        (∀ f ∈ d.fields, f.lo ≤ f.hi → f.hi < n → marksCell k v f.effect = true → sparesCell k d.onWrite = true →
          (∀ g ∈ d.fields, g ≠ f → sparesCell k g.effect = true) →
          (instrOp i = .write → h'.cs.cell k = v) ∧
          (instrOp i ≠ .write → h'.cs.cell k = if hasBitIn (instrOperand h i) f.hi f.lo then v else h.cs.cell k)) ∧
        (marksCell k v d.onWrite = true → (∀ f ∈ d.fields, sparesCell k f.effect = true) → h'.cs.cell k = v)
end

