-- ==== Sys2Proof/Laws/Assoc.lean ====
section
/-! SUPPORT. The laws of finite maps as lists: read after write, and the strictly rising form is kept. -/

namespace Sys2Proof.Machine.Assoc

variable {α : Type}

@[simp] theorem find_nil (k : Nat) : find ([] : List (Nat × α)) k = none := rfl

theorem find_insert_self (l : List (Nat × α)) (k : Nat) (v : α) : find (insert l k v) k = some v := by
  induction l with
  | nil => simp [insert, find]
  | cons kv rest ih =>
    obtain ⟨k', v'⟩ := kv
    simp only [insert]
    split
    · simp [find]
    · split
      · simp [find]
      · simp [find, *]

theorem find_insert_ne (l : List (Nat × α)) {k k' : Nat} (v : α) (hne : k' ≠ k) :
    find (insert l k v) k' = find l k' := by
  induction l with
  | nil => simp [insert, find, Ne.symm hne]
  | cons kv rest ih =>
    obtain ⟨j, w⟩ := kv
    simp only [insert]
    split
    · simp [find, Ne.symm hne]
    · split
      · rename_i h; subst h; simp [find, Ne.symm hne]
      · simp [find, ih]

theorem find_erase_self (l : List (Nat × α)) (k : Nat) : find (erase l k) k = none := by
  induction l with
  | nil => rfl
  | cons kv rest ih =>
    obtain ⟨j, w⟩ := kv
    by_cases h : j = k
    · simpa [erase, h] using ih
    · simpa [erase, h, find] using ih

theorem find_erase_ne (l : List (Nat × α)) {k k' : Nat} (hne : k' ≠ k) : find (erase l k) k' = find l k' := by
  induction l with
  | nil => rfl
  | cons kv rest ih =>
    obtain ⟨j, w⟩ := kv
    by_cases h : j = k
    · subst h; simpa [erase, find, Ne.symm hne] using ih
    · by_cases hj : j = k'
      · subst hj; simp [erase, h, find]
      · simpa [erase, h, find, hj] using ih

/-- The strictly rising form, as a statement about all pairs of entries. -/
theorem sorted_iff (l : List (Nat × α)) : sorted l = true ↔ l.Pairwise fun a b => a.1 < b.1 := by
  induction l with
  | nil => simp [sorted]
  | cons kv rest ih =>
    cases rest with
    | nil => simp [sorted]
    | cons kv' rest' =>
      rw [sorted, Bool.and_eq_true, ih, List.pairwise_cons (a := kv)]
      constructor
      · rintro ⟨h1, h2⟩
        refine ⟨fun b hb => ?_, h2⟩
        have h1' : kv.1 < kv'.1 := by simpa using h1
        rcases List.mem_cons.mp hb with rfl | hb
        · exact h1'
        · exact lt_trans h1' ((List.pairwise_cons.mp h2).1 b hb)
      · rintro ⟨h1, h2⟩
        exact ⟨by simpa using h1 kv' (by simp), h2⟩

theorem mem_insert {l : List (Nat × α)} {k : Nat} {v : α} {kv : Nat × α} (h : kv ∈ insert l k v) :
    kv = (k, v) ∨ kv ∈ l := by
  induction l with
  | nil => simpa [insert] using h
  | cons jw rest ih =>
    obtain ⟨j, w⟩ := jw
    simp only [insert] at h
    split at h
    · simpa using h
    · split at h
      · simp only [List.mem_cons] at h ⊢; tauto
      · simp only [List.mem_cons] at h ⊢
        rcases h with h | h
        · exact .inr (.inl h)
        · rcases ih h with h | h
          · exact .inl h
          · exact .inr (.inr h)

theorem sorted_insert {l : List (Nat × α)} (k : Nat) (v : α) (h : sorted l = true) : sorted (insert l k v) = true := by
  rw [sorted_iff] at h ⊢
  induction l with
  | nil => simp [insert]
  | cons jw rest ih =>
    obtain ⟨j, w⟩ := jw
    obtain ⟨h1, h2⟩ := List.pairwise_cons.mp h
    simp only [insert]
    split
    · rename_i hk
      refine List.pairwise_cons.mpr ⟨fun b hb => ?_, h⟩
      rcases List.mem_cons.mp hb with rfl | hb
      · exact hk
      · exact lt_trans hk (h1 b hb)
    · split
      · rename_i hj; subst hj
        exact List.pairwise_cons.mpr ⟨h1, h2⟩
      · refine List.pairwise_cons.mpr ⟨fun b hb => ?_, ih h2⟩
        rcases mem_insert hb with rfl | hb
        · show j < k; omega
        · exact h1 b hb

theorem sorted_erase {l : List (Nat × α)} (k : Nat) (h : sorted l = true) : sorted (erase l k) = true := by
  rw [sorted_iff] at h ⊢
  exact h.filter _

end Sys2Proof.Machine.Assoc
end

