-- ==== Sys2Proof/Laws/State.lean ====
section
/-! SUPPORT. One lemma per field per update of the hart, so that no later proof unfolds a record update. -/

namespace Sys2Proof.Machine

variable {xlen : Nat}

@[simp] theorem setCell_moment (cs : CS xlen) (k : Nat) (v : Word xlen) : (cs.setCell k v).moment = cs.moment := rfl
@[simp] theorem passMoment_cells (h : Hart xlen) : (passMoment h).cs.cells = h.cs.cells := rfl
@[simp] theorem passMoment_moment (h : Hart xlen) : (passMoment h).cs.moment = h.cs.moment + 1 := rfl
@[simp] theorem passMoment_cell (h : Hart xlen) (k : Nat) : (passMoment h).cs.cell k = h.cs.cell k := rfl

@[simp] theorem placeByte_platform (h : Hart xlen) (a : Nat) (b : Byte) : (placeByte h a b).platform = h.platform := rfl
@[simp] theorem placeByte_x (h : Hart xlen) (a : Nat) (b : Byte) : (placeByte h a b).x = h.x := rfl
@[simp] theorem placeByte_pc (h : Hart xlen) (a : Nat) (b : Byte) : (placeByte h a b).pc = h.pc := rfl
@[simp] theorem placeByte_cs (h : Hart xlen) (a : Nat) (b : Byte) : (placeByte h a b).cs = h.cs := rfl
@[simp] theorem placeByte_mem (h : Hart xlen) (a : Nat) (b : Byte) : (placeByte h a b).mem = Assoc.insert h.mem a b := rfl
@[simp] theorem placeByte_events (h : Hart xlen) (a : Nat) (b : Byte) : (placeByte h a b).events = h.events := rfl

@[simp] theorem recordAccess_platform (h : Hart xlen) (c : AccessClass) (a : CsrAddr) : (recordAccess h c a).platform = h.platform := rfl
@[simp] theorem recordAccess_x (h : Hart xlen) (c : AccessClass) (a : CsrAddr) : (recordAccess h c a).x = h.x := rfl
@[simp] theorem recordAccess_pc (h : Hart xlen) (c : AccessClass) (a : CsrAddr) : (recordAccess h c a).pc = h.pc := rfl
@[simp] theorem recordAccess_cs (h : Hart xlen) (c : AccessClass) (a : CsrAddr) : (recordAccess h c a).cs = h.cs := rfl
@[simp] theorem recordAccess_mem (h : Hart xlen) (c : AccessClass) (a : CsrAddr) : (recordAccess h c a).mem = h.mem := rfl

@[simp] theorem afterCsrRead_platform (h : Hart xlen) (a : CsrAddr) : (afterCsrRead h a).platform = h.platform := rfl
@[simp] theorem afterCsrRead_x (h : Hart xlen) (a : CsrAddr) : (afterCsrRead h a).x = h.x := rfl
@[simp] theorem afterCsrRead_pc (h : Hart xlen) (a : CsrAddr) : (afterCsrRead h a).pc = h.pc := rfl
@[simp] theorem afterCsrRead_cs (h : Hart xlen) (a : CsrAddr) : (afterCsrRead h a).cs = csrReadEffect h.platform a h.cs := rfl
@[simp] theorem afterCsrRead_mem (h : Hart xlen) (a : CsrAddr) : (afterCsrRead h a).mem = h.mem := rfl

@[simp] theorem csrWrite_platform (h : Hart xlen) (a : CsrAddr) (v t : Word xlen) : (csrWrite h a v t).platform = h.platform := rfl
@[simp] theorem csrWrite_x (h : Hart xlen) (a : CsrAddr) (v t : Word xlen) : (csrWrite h a v t).x = h.x := rfl
@[simp] theorem csrWrite_pc (h : Hart xlen) (a : CsrAddr) (v t : Word xlen) : (csrWrite h a v t).pc = h.pc := rfl
@[simp] theorem csrWrite_cs (h : Hart xlen) (a : CsrAddr) (v t : Word xlen) : (csrWrite h a v t).cs = csrWriteEffect h.platform a h.cs v t := rfl
@[simp] theorem csrWrite_mem (h : Hart xlen) (a : CsrAddr) (v t : Word xlen) : (csrWrite h a v t).mem = h.mem := rfl

@[simp] theorem implicitUpdate_platform (h : Hart xlen) (w : List CsrAddr) (info : InstrWord) : (implicitUpdate h w info).platform = h.platform := rfl
@[simp] theorem implicitUpdate_x (h : Hart xlen) (w : List CsrAddr) (info : InstrWord) : (implicitUpdate h w info).x = h.x := rfl
@[simp] theorem implicitUpdate_pc (h : Hart xlen) (w : List CsrAddr) (info : InstrWord) : (implicitUpdate h w info).pc = h.pc := rfl
@[simp] theorem implicitUpdate_cs (h : Hart xlen) (w : List CsrAddr) (info : InstrWord) : (implicitUpdate h w info).cs = csrImplicit h.platform h.cs w info := rfl
@[simp] theorem implicitUpdate_mem (h : Hart xlen) (w : List CsrAddr) (info : InstrWord) : (implicitUpdate h w info).mem = h.mem := rfl
@[simp] theorem implicitUpdate_events (h : Hart xlen) (w : List CsrAddr) (info : InstrWord) : (implicitUpdate h w info).events = h.events := rfl

@[simp] theorem advancePc_platform (h : Hart xlen) : (advancePc h).platform = h.platform := rfl
@[simp] theorem advancePc_x (h : Hart xlen) : (advancePc h).x = h.x := rfl
@[simp] theorem advancePc_pc (h : Hart xlen) : (advancePc h).pc = h.pc + 4#xlen := rfl
@[simp] theorem advancePc_cs (h : Hart xlen) : (advancePc h).cs = h.cs := rfl
@[simp] theorem advancePc_mem (h : Hart xlen) : (advancePc h).mem = h.mem := rfl
@[simp] theorem advancePc_events (h : Hart xlen) : (advancePc h).events = h.events := rfl

@[simp] theorem passMoment_platform (h : Hart xlen) : (passMoment h).platform = h.platform := rfl
@[simp] theorem passMoment_x (h : Hart xlen) : (passMoment h).x = h.x := rfl
@[simp] theorem passMoment_pc (h : Hart xlen) : (passMoment h).pc = h.pc := rfl
@[simp] theorem passMoment_mem (h : Hart xlen) : (passMoment h).mem = h.mem := rfl
@[simp] theorem passMoment_events (h : Hart xlen) : (passMoment h).events = h.events := rfl

@[simp] theorem writeX_platform (h : Hart xlen) (r : RegNum) (v : Word xlen) : (writeX h r v).platform = h.platform := by
  unfold writeX; split <;> rfl
@[simp] theorem writeX_pc (h : Hart xlen) (r : RegNum) (v : Word xlen) : (writeX h r v).pc = h.pc := by
  unfold writeX; split <;> rfl
@[simp] theorem writeX_cs (h : Hart xlen) (r : RegNum) (v : Word xlen) : (writeX h r v).cs = h.cs := by
  unfold writeX; split <;> rfl
@[simp] theorem writeX_mem (h : Hart xlen) (r : RegNum) (v : Word xlen) : (writeX h r v).mem = h.mem := by
  unfold writeX; split <;> rfl
@[simp] theorem writeX_events (h : Hart xlen) (r : RegNum) (v : Word xlen) : (writeX h r v).events = h.events := by
  unfold writeX; split <;> rfl

/-- What the accesses of one instruction add to the history. -/
theorem afterCsrRead_events (h : Hart xlen) (a : CsrAddr) : ∃ m, (afterCsrRead h a).events = h.events ++
    [{ cls := .deviceInput, hart := h.platform.hartId, csr := a, index := m, strong := h.platform.strong.contains a }] :=
  ⟨_, rfl⟩

/-- Reading a register after a write: `x0` reads zero and takes nothing (10_state.md R11). -/
theorem readX_writeX (h : Hart xlen) (r q : RegNum) (v : Word xlen) :
    readX (writeX h r v) q = if q = r ∧ q ≠ 0#5 then v else readX h q := by
  unfold readX writeX
  by_cases hq : q = 0#5
  · simp [hq]
  · by_cases hr : r = 0#5
    · simp [hq, hr]
    · simp only [hq, hr, if_false]
      by_cases hqr : q = r
      · subst hqr; simp [hq, Vector.get_eq_getElem]
      · have : r.toNat ≠ q.toNat := fun h => hqr (BitVec.eq_of_toNat_eq h.symm)
        simp [hqr, Vector.get_eq_getElem, Vector.getElem_set_ne, this]

@[simp] theorem readX_zero (h : Hart xlen) : readX h 0#5 = 0#xlen := rfl

/-- Reading registers looks at `x` alone. -/
theorem readX_congr {h h' : Hart xlen} (hx : h'.x = h.x) (r : RegNum) : readX h' r = readX h r := by
  unfold readX; rw [hx]

@[simp] theorem readX_afterCsrRead (h : Hart xlen) (a : CsrAddr) (r : RegNum) :
    readX (afterCsrRead h a) r = readX h r := rfl
@[simp] theorem readX_csrWrite (h : Hart xlen) (a : CsrAddr) (v t : Word xlen) (r : RegNum) :
    readX (csrWrite h a v t) r = readX h r := rfl
@[simp] theorem readX_implicitUpdate (h : Hart xlen) (w : List CsrAddr) (info : InstrWord) (r : RegNum) :
    readX (implicitUpdate h w info) r = readX h r := rfl
@[simp] theorem readX_advancePc (h : Hart xlen) (r : RegNum) : readX (advancePc h) r = readX h r := rfl
@[simp] theorem readX_passMoment (h : Hart xlen) (r : RegNum) : readX (passMoment h) r = readX h r := rfl

@[simp] theorem liftHart_next (h : Hart xlen) : liftHart xlen (.next h) = .next { xlen := xlen, hart := h } := rfl
@[simp] theorem liftHart_fault (f : Fault) : liftHart xlen (.fault f) = .fault f := rfl
@[simp] theorem liftHart_refused (r : Refusal) : liftHart xlen (.refused r) = .refused r := rfl

end Sys2Proof.Machine
end

