-- ==== Sys2Proof/Laws/CsrFile.lean ====
section
/-! SUPPORT. The laws of cells and effects: read after write, what an effect leaves alone, the canonical form. -/

namespace Sys2Proof.Machine

variable {xlen : Nat}

@[simp] theorem cell_setCell_self (cs : CS xlen) (k : Nat) (v : Word xlen) : (cs.setCell k v).cell k = v := by
  unfold CS.setCell CS.cell
  by_cases h : v = 0#xlen
  · simp [h, Assoc.find_erase_self]
  · simp [h, Assoc.find_insert_self]

theorem cell_setCell_ne (cs : CS xlen) {k k' : Nat} (v : Word xlen) (hne : k' ≠ k) :
    (cs.setCell k v).cell k' = cs.cell k' := by
  unfold CS.setCell CS.cell
  by_cases h : v = 0#xlen
  · simp [h, Assoc.find_erase_ne _ hne]
  · simp [h, Assoc.find_insert_ne _ _ hne]

/-- Setting a cell keeps the canonical form. -/
theorem wf_setCell {cs : CS xlen} (k : Nat) (v : Word xlen) (hw : cs.wf = true) : (cs.setCell k v).wf = true := by
  simp only [CS.wf, Bool.and_eq_true, List.all_eq_true, decide_eq_true_eq, CS.setCell] at hw ⊢
  by_cases h : v = 0#xlen
  · simp only [h, if_true]
    exact ⟨Assoc.sorted_erase _ hw.1, fun kv hkv => hw.2 kv (List.mem_filter.mp hkv).1⟩
  · simp only [h, if_false]
    refine ⟨Assoc.sorted_insert _ _ hw.1, fun kv hkv => ?_⟩
    rcases Assoc.mem_insert hkv with rfl | hkv
    · exact h
    · exact hw.2 kv hkv

@[simp] theorem applyEffect_nil (inp : Inputs xlen) (cs : CS xlen) : applyEffect inp [] cs = cs := rfl

@[simp] theorem applyEffect_cons (inp : Inputs xlen) (a : Assign xlen) (e : List (Assign xlen)) (cs : CS xlen) :
    applyEffect inp (a :: e) cs = applyEffect inp e (cs.setCell a.cell (evalExpr inp cs a.expr)) := rfl

@[simp] theorem applyEffect_moment (inp : Inputs xlen) (e : List (Assign xlen)) (cs : CS xlen) :
    (applyEffect inp e cs).moment = cs.moment := by
  induction e generalizing cs with
  | nil => rfl
  | cons a e ih => simp [ih]

/-- An effect leaves alone every cell it does not assign. -/
theorem applyEffect_cell (inp : Inputs xlen) {e : List (Assign xlen)} {k : Nat} (hk : ∀ a ∈ e, a.cell ≠ k)
    (cs : CS xlen) : (applyEffect inp e cs).cell k = cs.cell k := by
  induction e generalizing cs with
  | nil => rfl
  | cons a e ih =>
    rw [applyEffect_cons, ih (fun b hb => hk b (List.mem_cons_of_mem _ hb)),
      cell_setCell_ne _ _ (Ne.symm (hk a (List.mem_cons_self ..)))]

theorem wf_applyEffect (inp : Inputs xlen) (e : List (Assign xlen)) {cs : CS xlen} (hw : cs.wf = true) :
    (applyEffect inp e cs).wf = true := by
  induction e generalizing cs with
  | nil => exact hw
  | cons a e ih => exact ih (wf_setCell _ _ hw)

/-- An expression that does not look at the touched-bit mask is the same under every mask. -/
theorem evalExpr_touched (inp : Inputs xlen) (t : Word xlen) (cs : CS xlen) (e : CsrExpr xlen)
    (hl : looksTouched e = false) : evalExpr { inp with touched := t } cs e = evalExpr inp cs e := by
  induction e with
  | touched => simp [looksTouched] at hl
  | not a ih => rw [evalExpr, evalExpr, ih hl]
  | and a b iha ihb | or a b iha ihb | add a b iha ihb =>
    simp only [looksTouched, Bool.or_eq_false_iff] at hl
    rw [evalExpr, evalExpr, iha hl.1, ihb hl.2]
  | ite c a b ihc iha ihb =>
    simp only [looksTouched, Bool.or_eq_false_iff] at hl
    rw [evalExpr, evalExpr, ihc hl.1.1, iha hl.1.2, ihb hl.2]
  | _ => rfl

/-- An effect none of whose expressions looks at the touched-bit mask is the same under every mask. -/
theorem applyEffect_touched (inp : Inputs xlen) (t : Word xlen) {e : List (Assign xlen)}
    (hl : ∀ a ∈ e, looksTouched a.expr = false) (cs : CS xlen) :
    applyEffect { inp with touched := t } e cs = applyEffect inp e cs := by
  induction e generalizing cs with
  | nil => rfl
  | cons a e ih =>
    rw [applyEffect_cons, applyEffect_cons, evalExpr_touched inp t cs a.expr (hl a (List.mem_cons_self ..)),
      ih fun b hb => hl b (List.mem_cons_of_mem _ hb)]

@[simp] theorem fieldEffects_nil (inp : Inputs xlen) (cs : CS xlen) : fieldEffects inp [] cs = cs := rfl

@[simp] theorem fieldEffects_cons (inp : Inputs xlen) (f : FieldEffect xlen) (fs : List (FieldEffect xlen))
    (cs : CS xlen) : fieldEffects inp (f :: fs) cs =
      fieldEffects inp fs (if fieldTouched inp.touched f.hi f.lo then applyEffect inp f.effect cs else cs) := rfl

@[simp] theorem fieldEffects_moment (inp : Inputs xlen) (fs : List (FieldEffect xlen)) (cs : CS xlen) :
    (fieldEffects inp fs cs).moment = cs.moment := by
  induction fs generalizing cs with
  | nil => rfl
  | cons f fs ih => rw [fieldEffects_cons, ih]; split <;> simp

theorem fieldEffects_cell (inp : Inputs xlen) {fs : List (FieldEffect xlen)} {k : Nat}
    (hk : ∀ f ∈ fs, ∀ a ∈ f.effect, a.cell ≠ k) (cs : CS xlen) : (fieldEffects inp fs cs).cell k = cs.cell k := by
  induction fs generalizing cs with
  | nil => rfl
  | cons f fs ih =>
    rw [fieldEffects_cons, ih fun g hg => hk g (List.mem_cons_of_mem _ hg)]
    split
    · exact applyEffect_cell inp (hk f (List.mem_cons_self ..)) cs
    · rfl

theorem wf_fieldEffects (inp : Inputs xlen) (fs : List (FieldEffect xlen)) {cs : CS xlen} (hw : cs.wf = true) :
    (fieldEffects inp fs cs).wf = true := by
  induction fs generalizing cs with
  | nil => exact hw
  | cons f fs ih =>
    rw [fieldEffects_cons]
    split
    · exact ih (wf_applyEffect _ _ hw)
    · exact ih hw

@[simp] theorem csrReadEffect_moment (p : Platform xlen) (a : CsrAddr) (cs : CS xlen) :
    (csrReadEffect p a cs).moment = cs.moment := by
  unfold csrReadEffect; split <;> simp

theorem wf_csrReadEffect (p : Platform xlen) (a : CsrAddr) {cs : CS xlen} (hw : cs.wf = true) :
    (csrReadEffect p a cs).wf = true := by
  unfold csrReadEffect
  split
  · exact wf_applyEffect _ _ hw
  · exact hw

@[simp] theorem storeIn_moment (d : CsrDesc xlen) (inp : Inputs xlen) (cs : CS xlen) :
    (storeIn d inp cs).moment = cs.moment := rfl

@[simp] theorem csrWriteEffect_moment (p : Platform xlen) (a : CsrAddr) (cs : CS xlen) (v t : Word xlen) :
    (csrWriteEffect p a cs v t).moment = cs.moment := by
  unfold csrWriteEffect; split <;> simp

theorem wf_csrWriteEffect (p : Platform xlen) (a : CsrAddr) {cs : CS xlen} (v t : Word xlen) (hw : cs.wf = true) :
    (csrWriteEffect p a cs v t).wf = true := by
  unfold csrWriteEffect
  split
  · exact wf_fieldEffects _ _ (wf_applyEffect _ _ (wf_setCell _ _ hw))
  · exact hw

@[simp] theorem csrImplicit_moment (p : Platform xlen) (cs : CS xlen) (w : List CsrAddr) (info : InstrWord) :
    (csrImplicit p cs w info).moment = cs.moment := applyEffect_moment ..

theorem wf_csrImplicit (p : Platform xlen) {cs : CS xlen} (w : List CsrAddr) (info : InstrWord) (hw : cs.wf = true) :
    (csrImplicit p cs w info).wf = true := wf_applyEffect _ _ hw

/-- The implicit update leaves alone the cell of every CSR in the set. -/
theorem csrImplicit_cell_of_backs (p : Platform xlen) (cs : CS xlen) {w : List CsrAddr} (info : InstrWord) {k : Nat}
    (hk : backs p w k = true) : (csrImplicit p cs w info).cell k = cs.cell k := by
  refine applyEffect_cell _ (fun a ha hak => ?_) cs
  have := (List.mem_filter.mp ha).2
  rw [hak, hk] at this
  simp at this

/-- An expression looks at the cells it mentions and the moment alone. -/
theorem evalExpr_congr (inp : Inputs xlen) {cs cs' : CS xlen} (hm : cs'.moment = cs.moment) (e : CsrExpr xlen)
    (hc : ∀ k, mentionsCell k e = true → cs'.cell k = cs.cell k) : evalExpr inp cs' e = evalExpr inp cs e := by
  induction e with
  | cell j => exact hc j (by simp [mentionsCell])
  | outside => simp [evalExpr, hm]
  | not a ih => rw [evalExpr, evalExpr, ih hc]
  | and a b iha ihb | or a b iha ihb | add a b iha ihb =>
    rw [evalExpr, evalExpr, iha fun k hk => hc k (by simp [mentionsCell, hk]),
      ihb fun k hk => hc k (by simp [mentionsCell, hk])]
  | ite c a b ihc iha ihb =>
    rw [evalExpr, evalExpr, ihc fun k hk => hc k (by simp [mentionsCell, hk]),
      iha fun k hk => hc k (by simp [mentionsCell, hk]), ihb fun k hk => hc k (by simp [mentionsCell, hk])]
  | _ => rfl

/-- An expression that does not look outside is the same at every moment. -/
theorem evalExpr_moment (inp : Inputs xlen) {cs cs' : CS xlen} (hc : ∀ k, cs'.cell k = cs.cell k) (e : CsrExpr xlen)
    (hl : looksOutside e = false) : evalExpr inp cs' e = evalExpr inp cs e := by
  induction e with
  | cell j => exact hc j
  | outside => simp [looksOutside] at hl
  | not a ih => rw [evalExpr, evalExpr, ih hl]
  | and a b iha ihb | or a b iha ihb | add a b iha ihb =>
    simp only [looksOutside, Bool.or_eq_false_iff] at hl
    rw [evalExpr, evalExpr, iha hl.1, ihb hl.2]
  | ite c a b ihc iha ihb =>
    simp only [looksOutside, Bool.or_eq_false_iff] at hl
    rw [evalExpr, evalExpr, ihc hl.1.1, iha hl.1.2, ihb hl.2]
  | _ => rfl

/-- Bit `i` of an expression that is bitwise in cell `k` looks, of that cell, at bit `i` alone. -/
theorem getLsbD_evalExpr_congr (inp : Inputs xlen) {cs cs' : CS xlen} {k i : Nat} (hm : cs'.moment = cs.moment)
    (hk : (cs'.cell k).getLsbD i = (cs.cell k).getLsbD i) (e : CsrExpr xlen) (hb : bitwiseIn k e = true)
    (hc : ∀ j, j ≠ k → mentionsCell j e = true → cs'.cell j = cs.cell j) :
    (evalExpr inp cs' e).getLsbD i = (evalExpr inp cs e).getLsbD i := by
  have whole : ∀ a : CsrExpr xlen, mentionsCell k a = false → (∀ j, mentionsCell j a = true → mentionsCell j e = true) →
      evalExpr inp cs' a = evalExpr inp cs a := fun a hka ha =>
    evalExpr_congr inp hm a fun j hj => hc j (fun hjk => by subst hjk; simp [hj] at hka) (ha j hj)
  induction e with
  | cell j =>
    by_cases hj : j = k
    · subst hj; exact hk
    · simp only [evalExpr]; rw [hc j hj (by simp [mentionsCell])]
  | outside => simp [evalExpr, hm]
  | not a ih =>
    rw [evalExpr, evalExpr, BitVec.getLsbD_not, BitVec.getLsbD_not, ih hb hc whole]
  | and a b iha ihb =>
    simp only [bitwiseIn, Bool.and_eq_true] at hb
    rw [evalExpr, evalExpr, BitVec.getLsbD_and, BitVec.getLsbD_and,
      iha hb.1 (fun j hj h => hc j hj (by simp [mentionsCell, h])) (fun a' h h' => whole a' h fun j hj => by simp [mentionsCell, h' j hj]),
      ihb hb.2 (fun j hj h => hc j hj (by simp [mentionsCell, h])) (fun a' h h' => whole a' h fun j hj => by simp [mentionsCell, h' j hj])]
  | or a b iha ihb =>
    simp only [bitwiseIn, Bool.and_eq_true] at hb
    rw [evalExpr, evalExpr, BitVec.getLsbD_or, BitVec.getLsbD_or,
      iha hb.1 (fun j hj h => hc j hj (by simp [mentionsCell, h])) (fun a' h h' => whole a' h fun j hj => by simp [mentionsCell, h' j hj]),
      ihb hb.2 (fun j hj h => hc j hj (by simp [mentionsCell, h])) (fun a' h h' => whole a' h fun j hj => by simp [mentionsCell, h' j hj])]
  | add a b =>
    simp only [bitwiseIn, Bool.and_eq_true, Bool.not_eq_true'] at hb
    rw [evalExpr, evalExpr, whole a hb.1 fun j h => by simp [mentionsCell, h], whole b hb.2 fun j h => by simp [mentionsCell, h]]
  | ite c a b _ iha ihb =>
    simp only [bitwiseIn, Bool.and_eq_true, Bool.not_eq_true'] at hb
    rw [evalExpr, evalExpr, whole c hb.1.1 fun j h => by simp [mentionsCell, h]]
    split
    · exact ihb hb.2 (fun j hj h => hc j hj (by simp [mentionsCell, h])) (fun a' h h' => whole a' h fun j hj => by simp [mentionsCell, h' j hj])
    · exact iha hb.1.2 (fun j hj h => hc j hj (by simp [mentionsCell, h])) (fun a' h h' => whole a' h fun j hj => by simp [mentionsCell, h' j hj])
  | _ => rfl

/-- The value of a CSR looks at the cells its read value mentions and the moment alone. -/
theorem valueIn_congr {d : CsrDesc xlen} {cs cs' : CS xlen} (hm : cs'.moment = cs.moment)
    (hc : ∀ k, mentionsCell k d.shown = true → cs'.cell k = cs.cell k) : valueIn d cs' = valueIn d cs := by
  unfold valueIn; rw [evalExpr_congr {} hm d.shown hc]

theorem csrAt_addr {p : Platform xlen} {a : CsrAddr} {d : CsrDesc xlen} (h : csrAt p a = some d) : d.addr = a := by
  simpa using List.find?_some h

theorem csrAt_mem {p : Platform xlen} {a : CsrAddr} {d : CsrDesc xlen} (h : csrAt p a = some d) : d ∈ p.csrs :=
  List.mem_of_find?_eq_some h

/-- Bit `i` of the word with `count` low ones. -/
theorem getLsbD_lowOnes (xlen count i : Nat) : (lowOnes xlen count).getLsbD i = (decide (i < xlen) && decide (i < count)) := by
  simp [lowOnes, BitVec.getLsbD_ofNat, Nat.testBit_two_pow_sub_one]

end Sys2Proof.Machine
end

