-- ==== Sys2Proof/Laws/Memory.lean ====
section
/-! SUPPORT. Main memory: read after write, and every memory operation keeps the canonical form. -/

namespace Sys2Proof.Machine

variable {xlen : Nat}

theorem readByte_placeByte_self (h : Hart xlen) (a : Nat) (b : Byte) : readByte (placeByte h a b) a = some b :=
  Assoc.find_insert_self _ _ _

theorem readByte_placeByte_ne (h : Hart xlen) {a a' : Nat} (b : Byte) (hne : a' ≠ a) :
    readByte (placeByte h a b) a' = readByte h a' :=
  Assoc.find_insert_ne _ _ hne

/-- Reading a byte looks at memory alone. -/
theorem readByte_congr {h h' : Hart xlen} (hm : h'.mem = h.mem) (a : Nat) : readByte h' a = readByte h a := by
  unfold readByte; rw [hm]

/-- Placing a byte inside the address space keeps memory's canonical form. -/
theorem memoryWf_placeByte {h : Hart xlen} {a : Nat} (b : Byte) (hw : Memory.wf h = true) (ha : a < 2 ^ xlen) :
    Memory.wf (placeByte h a b) = true := by
  simp only [Memory.wf, Bool.and_eq_true, List.all_eq_true, placeByte_mem, decide_eq_true_eq] at hw ⊢
  refine ⟨Assoc.sorted_insert _ _ hw.1, fun c hc => ?_⟩
  rcases Assoc.mem_insert hc with rfl | hc
  · exact ha
  · exact hw.2 c hc

/-- Placing an instruction word keeps memory's canonical form. -/
theorem memoryWf_placeWord {h : Hart xlen} (w : InstrWord) (hw : Memory.wf h = true) : Memory.wf (placeWord h w) = true := by
  have h1 := memoryWf_placeByte (w.extractLsb' 0 8) hw h.pc.isLt
  have h2 := memoryWf_placeByte (w.extractLsb' 8 8) h1 (h.pc + 1#xlen).isLt
  have h3 := memoryWf_placeByte (w.extractLsb' 16 8) h2 (h.pc + 2#xlen).isLt
  exact memoryWf_placeByte (w.extractLsb' 24 8) h3 (h.pc + 3#xlen).isLt

/-- The reset hart's memory is canonical. -/
theorem memoryWf_reset (xlen : Nat) : Memory.wf (Hart.reset xlen) = true := rfl

/-- Placing a word changes memory alone. -/
@[simp] theorem placeWord_pc (h : Hart xlen) (w : InstrWord) : (placeWord h w).pc = h.pc := rfl
@[simp] theorem placeWord_platform (h : Hart xlen) (w : InstrWord) : (placeWord h w).platform = h.platform := rfl
@[simp] theorem placeWord_cs (h : Hart xlen) (w : InstrWord) : (placeWord h w).cs = h.cs := rfl
@[simp] theorem placeWord_x (h : Hart xlen) (w : InstrWord) : (placeWord h w).x = h.x := rfl
@[simp] theorem placeWord_events (h : Hart xlen) (w : InstrWord) : (placeWord h w).events = h.events := rfl

end Sys2Proof.Machine
end

