-- ==== Sys2Proof/Laws/PerInstr.lean ====
section
/-! SUPPORT. Statements made once for each instruction of the table. -/

namespace Sys2Proof.Laws

/-- The word of an instruction, masked, is the match value of its row: the opcode and funct3 bits are the row's,
whatever the operands (30_encoding.md R59). -/
def EncodesItsRow.Statement (i : Instr) : Prop := encode i &&& rowMask = rowMatch i

/-- The fixed bits of the one format do not depend on the operands. -/
theorem iTypeWord_masked (csr : CsrAddr) (src : BitVec 5) (funct3 : BitVec 3) (rd : RegNum) :
    iTypeWord csr src funct3 rd &&& rowMask = iTypeWord 0#12 0#5 funct3 0#5 := by
  simp only [iTypeWord, rowMask]
  rw [show (0x0000707F#32) = 0#12 ++ 0#5 ++ BitVec.allOnes 3 ++ 0#5 ++ BitVec.allOnes 7 by decide]
  rw [BitVec.and_append, BitVec.and_append, BitVec.and_append, BitVec.and_append]
  rw [BitVec.and_allOnes, BitVec.and_allOnes, BitVec.and_zero, BitVec.and_zero, BitVec.and_zero]

theorem EncodesItsRow.csrrw (rd : RegNum) (csr : CsrAddr) (rs1 : RegNum) :
    EncodesItsRow.Statement (.csrrw rd csr rs1) := iTypeWord_masked ..

theorem EncodesItsRow.csrrs (rd : RegNum) (csr : CsrAddr) (rs1 : RegNum) :
    EncodesItsRow.Statement (.csrrs rd csr rs1) := iTypeWord_masked ..

theorem EncodesItsRow.csrrc (rd : RegNum) (csr : CsrAddr) (rs1 : RegNum) :
    EncodesItsRow.Statement (.csrrc rd csr rs1) := iTypeWord_masked ..

theorem EncodesItsRow.csrrwi (rd : RegNum) (csr : CsrAddr) (uimm : Uimm) :
    EncodesItsRow.Statement (.csrrwi rd csr uimm) := iTypeWord_masked ..

theorem EncodesItsRow.csrrsi (rd : RegNum) (csr : CsrAddr) (uimm : Uimm) :
    EncodesItsRow.Statement (.csrrsi rd csr uimm) := iTypeWord_masked ..

theorem EncodesItsRow.csrrci (rd : RegNum) (csr : CsrAddr) (uimm : Uimm) :
    EncodesItsRow.Statement (.csrrci rd csr uimm) := iTypeWord_masked ..

end Sys2Proof.Laws
end

