-- ==== Sys2Proof/Laws/Step.lean ====
section
/-! SUPPORT. What the shared operations can do, said once: the template as one equation for all six instructions, its
outcomes, and what each phase leaves alone. -/

namespace Sys2Proof.Machine

variable {xlen : Nat}

/-- All six instructions are the template. -/
theorem exec_eq_csrStep (i : Instr) (h : Hart xlen) : exec i { xlen := xlen, hart := h } =
    liftHart xlen (csrStep (instrOp i) (instrRd i) (instrCsr i) (instrSrc i) (instrOperand h i) (encode i) h) := by
  cases i <;> rfl

/-- The hart after an access that is allowed, in terms of the template's phases. -/
def accessResult (op : CsrOp) (rd : RegNum) (csr : CsrAddr) (src : BitVec 5) (operand : Word xlen) (instr : InstrWord)
    (h : Hart xlen) : Hart xlen :=
  let old := csrPeek h.platform csr h.cs
  advancePc (implicitUpdate (resultPhase (doesRead op rd)
    (writePhase (doesWrite op src) op (readPhase (doesRead op rd) h csr) csr old operand) rd old)
    (writtenSet (doesWrite op src) csr) instr)

/-- What the template can do: an access that is allowed goes on, any other raises. -/
theorem csrStep_eq (op : CsrOp) (rd : RegNum) (csr : CsrAddr) (src : BitVec 5) (operand : Word xlen)
    (instr : InstrWord) (h : Hart xlen) : csrStep op rd csr src operand instr h =
      if accessAllowed h csr (doesWrite op src) then .next (accessResult op rd csr src operand instr h)
      else raiseIllegal h instr := rfl

variable (reads writes : Bool) (h : Hart xlen) (csr : CsrAddr) (op : CsrOp) (old operand : Word xlen) (rd : RegNum)

@[simp] theorem readPhase_platform : (readPhase reads h csr).platform = h.platform := by cases reads <;> rfl
@[simp] theorem readPhase_pc : (readPhase reads h csr).pc = h.pc := by cases reads <;> rfl
@[simp] theorem readPhase_mem : (readPhase reads h csr).mem = h.mem := by cases reads <;> rfl
@[simp] theorem readPhase_x : (readPhase reads h csr).x = h.x := by cases reads <;> rfl
@[simp] theorem readPhase_moment : (readPhase reads h csr).cs.moment = h.cs.moment := by
  cases reads <;> simp [readPhase]
theorem readPhase_cs : (readPhase reads h csr).cs = if reads then csrReadEffect h.platform csr h.cs else h.cs := by
  cases reads <;> rfl

@[simp] theorem writePhase_platform : (writePhase writes op h csr old operand).platform = h.platform := by
  cases writes <;> rfl
@[simp] theorem writePhase_pc : (writePhase writes op h csr old operand).pc = h.pc := by cases writes <;> rfl
@[simp] theorem writePhase_mem : (writePhase writes op h csr old operand).mem = h.mem := by cases writes <;> rfl
@[simp] theorem writePhase_x : (writePhase writes op h csr old operand).x = h.x := by cases writes <;> rfl
@[simp] theorem writePhase_moment : (writePhase writes op h csr old operand).cs.moment = h.cs.moment := by
  cases writes <;> simp [writePhase]
theorem writePhase_cs : (writePhase writes op h csr old operand).cs = if writes then
    csrWriteEffect h.platform csr h.cs (presentedValue op old operand) (touchedMask op operand) else h.cs := by
  cases writes <;> rfl

@[simp] theorem resultPhase_platform : (resultPhase reads h rd old).platform = h.platform := by
  cases reads <;> simp [resultPhase]
@[simp] theorem resultPhase_pc : (resultPhase reads h rd old).pc = h.pc := by cases reads <;> simp [resultPhase]
@[simp] theorem resultPhase_mem : (resultPhase reads h rd old).mem = h.mem := by cases reads <;> simp [resultPhase]
@[simp] theorem resultPhase_cs : (resultPhase reads h rd old).cs = h.cs := by cases reads <;> simp [resultPhase]
@[simp] theorem resultPhase_events : (resultPhase reads h rd old).events = h.events := by
  cases reads <;> simp [resultPhase]

/-- The registers after an access: `rd` holds the old value where the instruction reads and `rd` is not `x0`. -/
theorem readX_resultPhase (q : RegNum) : readX (resultPhase reads h rd old) q =
    if reads ∧ q = rd ∧ q ≠ 0#5 then old else readX h q := by
  cases reads <;> simp [resultPhase, readX_writeX]

/-! ### The hart after an access that is allowed, field by field -/

/-- The hart after instruction `i`, where its access is allowed. -/
def instrResult (i : Instr) (h : Hart xlen) : Hart xlen :=
  accessResult (instrOp i) (instrRd i) (instrCsr i) (instrSrc i) (instrOperand h i) (encode i) h

/-- An instruction whose access is allowed goes on. -/
theorem goes_of_allowed {i : Instr} {h : Hart xlen} (ha : accessAllowed h (instrCsr i) (writesCsr i) = true) :
    Goes i h (instrResult i h) := by
  unfold writesCsr at ha
  simp [Goes, exec_eq_csrStep, csrStep_eq, ha, instrResult]

/-- An instruction whose access is not allowed raises. -/
theorem raises_of_not_allowed {i : Instr} {h : Hart xlen}
    (ha : accessAllowed h (instrCsr i) (writesCsr i) = false) : Raises i h := by
  unfold writesCsr at ha
  simp [Raises, exec_eq_csrStep, csrStep_eq, ha]

/-- Accessible, and written only where not read-only: the access is allowed. -/
theorem allowed_of_accessible {h : Hart xlen} {csr : CsrAddr} {writes : Bool} (ha : Accessible h csr)
    (hr : writes = false ∨ NotReadOnly h csr) : accessAllowed h csr writes = true := by
  obtain ⟨h1, h2⟩ := ha
  rcases hr with rfl | hr
  · simp [accessAllowed, h1, h2]
  · simp only [NotReadOnly] at hr; simp [accessAllowed, h1, h2, hr]

/-- An instruction has one next hart. -/
theorem goes_unique {i : Instr} {h h' h'' : Hart xlen} (a : Goes i h h') (b : Goes i h h'') : h' = h'' := by
  simp only [Goes] at a b; rw [a] at b; simpa using b

theorem instrResult_pc (i : Instr) (h : Hart xlen) : (instrResult i h).pc = h.pc + 4#xlen := by
  simp [instrResult, accessResult]

theorem instrResult_platform (i : Instr) (h : Hart xlen) : (instrResult i h).platform = h.platform := by
  simp [instrResult, accessResult]

theorem instrResult_mem (i : Instr) (h : Hart xlen) : (instrResult i h).mem = h.mem := by
  simp [instrResult, accessResult]

theorem instrResult_moment (i : Instr) (h : Hart xlen) : (instrResult i h).cs.moment = h.cs.moment := by
  simp [instrResult, accessResult]

/-- The CSR file: the read side effects where the instruction reads, the write where it writes, the implicit update. -/
theorem instrResult_cs (i : Instr) (h : Hart xlen) :
    let csr := instrCsr i
    let base := if readsCsr i then csrReadEffect h.platform csr h.cs else h.cs
    (instrResult i h).cs = csrImplicit h.platform
      (if writesCsr i then csrWriteEffect h.platform csr base
          (presentedValue (instrOp i) (csrPeek h.platform csr h.cs) (instrOperand h i))
          (touchedMask (instrOp i) (instrOperand h i))
        else base) (writtenSet (writesCsr i) csr) (encode i) := by
  have h1 : doesRead (instrOp i) (instrRd i) = readsCsr i := rfl
  have h2 : doesWrite (instrOp i) (instrSrc i) = writesCsr i := rfl
  simp [instrResult, accessResult, writePhase_cs, readPhase_cs, h1, h2]

/-- The registers: `rd` holds the old value where the instruction reads. -/
theorem readX_instrResult (i : Instr) (h : Hart xlen) (q : RegNum) : readX (instrResult i h) q =
    if readsCsr i ∧ q = instrRd i ∧ q ≠ 0#5 then csrPeek h.platform (instrCsr i) h.cs else readX h q := by
  have h1 : doesRead (instrOp i) (instrRd i) = readsCsr i := rfl
  simp only [instrResult, accessResult, readX_advancePc, readX_implicitUpdate, readX_resultPhase, h1]
  rw [readX_congr (h := h) (by simp)]

/-- The register file itself. -/
theorem instrResult_x (i : Instr) (h : Hart xlen) : (instrResult i h).x =
    if readsCsr i then (writeX h (instrRd i) (csrPeek h.platform (instrCsr i) h.cs)).x else h.x := by
  have h1 : doesRead (instrOp i) (instrRd i) = readsCsr i := rfl
  simp only [instrResult, accessResult, h1, advancePc_x, implicitUpdate_x, resultPhase]
  generalize readsCsr i = r
  cases r
  · simp
  · simp [writeX]; split <;> simp

/-- The history: one input where the instruction reads, then one output where it writes. -/
theorem instrResult_events (i : Instr) (h : Hart xlen) : (instrResult i h).events =
    h.events ++ (if readsCsr i then [inputEvent h (instrCsr i)] else []) ++
      (if writesCsr i then [outputEvent h (instrCsr i)] else []) := by
  have h1 : doesRead (instrOp i) (instrRd i) = readsCsr i := rfl
  have h2 : doesWrite (instrOp i) (instrSrc i) = writesCsr i := rfl
  simp only [instrResult, accessResult, advancePc_events, implicitUpdate_events, resultPhase_events, h1, h2]
  generalize readsCsr i = r; generalize writesCsr i = w
  cases r <;> cases w <;>
    simp [writePhase, readPhase, csrWrite, afterCsrRead, recordAccess, inputEvent, outputEvent]

/-! ### Effects that spare a cell, and effects that mark one -/

/-- An effect leaves alone every cell it spares. -/
theorem applyEffect_spares (inp : Inputs xlen) {e : List (Assign xlen)} {k : Nat} (hs : sparesCell k e = true)
    (cs : CS xlen) : (applyEffect inp e cs).cell k = cs.cell k :=
  applyEffect_cell inp (by simpa [sparesCell] using hs) cs

/-- An effect that marks a cell leaves the mark there. -/
theorem applyEffect_marks (inp : Inputs xlen) {e : List (Assign xlen)} {k : Nat} {v : Word xlen}
    (hm : marksCell k v e = true) (cs : CS xlen) : (applyEffect inp e cs).cell k = v := by
  induction e generalizing cs with
  | nil => simp [marksCell, sparesCell] at hm
  | cons a e ih =>
    rw [applyEffect_cons]
    simp only [marksCell, List.all_cons, Bool.and_eq_true] at hm ih
    obtain ⟨hn, ha, he⟩ := hm
    cases hs : sparesCell k e with
    | false => exact ih ⟨by simp [hs], he⟩ _
    | true =>
      have hk : a.cell = k := by
        by_contra hne
        simp only [sparesCell] at hs
        simp [sparesCell, hne] at hn
        simp at hs
        obtain ⟨x, hx, hxk⟩ := hn
        exact hs x hx hxk
      rw [applyEffect_spares _ hs, ← hk, cell_setCell_self]
      have : a.expr = .lit v := by simpa [hk] using ha
      rw [this]; rfl

/-- The implicit update leaves alone every cell that the platform's implicit assignments spare. -/
theorem csrImplicit_spares (p : Platform xlen) (cs : CS xlen) (w : List CsrAddr) (info : InstrWord) {k : Nat}
    (hs : sparesCell k p.implicits = true) : (csrImplicit p cs w info).cell k = cs.cell k := by
  have all : ∀ a ∈ p.implicits, a.cell ≠ k := by simpa [sparesCell] using hs
  exact applyEffect_cell _ (fun a ha => all a (List.mem_filter.mp ha).1) cs

/-! ### Fetch and step -/

/-- Fetch reads the four bytes at an aligned pc. -/
theorem fetch_of_bytes {h : Hart xlen} {b0 b1 b2 b3 : Byte} (ha : pcAligned h.platform h.pc = true)
    (h0 : readByte h h.pc.toNat = some b0) (h1 : readByte h (h.pc + 1#xlen).toNat = some b1)
    (h2 : readByte h (h.pc + 2#xlen).toNat = some b2) (h3 : readByte h (h.pc + 3#xlen).toNat = some b3) :
    fetch h = .ok [b0, b1, b2, b3] := by
  simp only [fetch, ha, if_true, fetchAddresses, readBytes, h0, h1, h2, h3]

/-- The hart that a trap layer leaves after instruction `i` raises. -/
def trapped (i : Instr) (h : Hart xlen) (saves : List (Assign xlen)) (target : CsrExpr xlen) : Hart xlen :=
  let inp : Inputs xlen := { instr := encode i, epc := h.pc, cause := BitVec.ofNat xlen illegalInstructionCause }
  { h with cs := applyEffect inp saves h.cs, pc := evalExpr inp h.cs target }

section
variable (i : Instr) (saves : List (Assign xlen)) (target : CsrExpr xlen)
@[simp] theorem trapped_platform : (trapped i h saves target).platform = h.platform := rfl
@[simp] theorem trapped_x : (trapped i h saves target).x = h.x := rfl
@[simp] theorem trapped_mem : (trapped i h saves target).mem = h.mem := rfl
@[simp] theorem trapped_events : (trapped i h saves target).events = h.events := rfl
@[simp] theorem trapped_moment : (trapped i h saves target).cs.moment = h.cs.moment := applyEffect_moment ..
end

/-- All that a step which goes on can do: run an instruction whose access is allowed, or raise into a trap layer. -/
theorem step_next_cases {h : Hart xlen} {s' : State} (hs : step { xlen := xlen, hart := h } = .next s') :
    ∃ i h', s' = { xlen := xlen, hart := passMoment h' } ∧
      ((accessAllowed h (instrCsr i) (writesCsr i) = true ∧ h' = instrResult i h) ∨
        (∃ saves target, h.platform.trap = .handler saves target ∧
          accessAllowed h (instrCsr i) (writesCsr i) = false ∧ h' = trapped i h saves target)) := by
  unfold step at hs
  split at hs
  · cases hs
  split at hs
  · cases hs
  rename_i i _ _
  cases ha : accessAllowed h (instrCsr i) (writesCsr i) with
  | true =>
    have hg := goes_of_allowed ha
    simp only [Goes] at hg
    rw [hg] at hs; cases hs
    exact ⟨i, _, rfl, .inl ⟨ha, rfl⟩⟩
  | false =>
    have hg := raises_of_not_allowed ha
    simp only [Raises] at hg
    rw [hg] at hs
    cases ht : h.platform.trap with
    | terminal => simp [raiseIllegal, ht, afterInstruction] at hs
    | handler saves target =>
      simp only [raiseIllegal, ht, liftHart_next, afterInstruction] at hs
      cases hs
      exact ⟨i, _, rfl, .inr ⟨saves, target, rfl, ha, rfl⟩⟩

end Sys2Proof.Machine
end

