-- ==== Sys2Proof/Machine/Flags.lean ====
section
/-! DEFINITION. Flags: there are none. The six instructions read and write no flag, condition code or predicate
(10_state.md R24); the floating-point flags the source mentions are the contents of a CSR. -/
end

