-- ==== Sys2Proof/Tests/Slice0.lean ====
section
/-! SUPPORT. Tests: ill-formed platforms that WellFormed refuses; words written out from the spec's encoding; steps of
the test vectors of 95_test_vectors.md (the vector's id stands in the comment, its values are the spec's); and, for each
obligation with hypotheses, a state and operands that meet them all. -/

namespace Sys2Proof.Tests

open Sys2Proof Sys2Proof.Machine

/-! ### WellFormed: the fixture passes, one ill-formed term per check -/

/-- A platform of one CSR. -/
def oneCsr (d : CsrDesc 32) : Platform 32 := { csrs := [d] }

theorem test_fixture_is_well_formed : (fixture 32).wellFormed = true ∧ (fixture 64).wellFormed = true := by decide

theorem test_xlen_below_five_refused : ({ csrs := [] } : Platform 4).wellFormed = false := by decide

theorem test_two_csrs_at_one_address_refused :
    ({ csrs := [plainCsr 0x340#12 0 32 0#32, plainCsr 0x340#12 1 32 0#32] } : Platform 32).wellFormed = false := by decide

theorem test_width_zero_or_above_xlen_refused :
    (oneCsr (plainCsr 0x340#12 0 0 0#32)).wellFormed = false ∧
    (oneCsr (plainCsr 0x340#12 0 33 0#32)).wellFormed = false := by decide

theorem test_value_that_is_not_bitwise_refused :
    (oneCsr { addr := 0x340#12, cell := 0, width := 32, shown := .add (.cell 0) (.lit 1#32) }).wellFormed = false := by
  decide

theorem test_field_outside_the_register_refused :
    (oneCsr { addr := 0x340#12, cell := 0, width := 32, fields := [{ hi := 32, lo := 0, effect := [] }] }).wellFormed = false ∧
    (oneCsr { addr := 0x340#12, cell := 0, width := 32, fields := [{ hi := 0, lo := 1, effect := [] }] }).wellFormed = false := by
  decide

theorem test_write_effect_on_the_own_value_refused :
    (oneCsr { addr := 0x340#12, cell := 0, width := 32, onWrite := [increment 0] }).wellFormed = false ∧
    (oneCsr { addr := 0x340#12, cell := 0, width := 32, shown := .or (.cell 0) (.cell 1),
              fields := [{ hi := 0, lo := 0, effect := [increment 1] }] }).wellFormed = false := by
  decide

/-! ### Decoding: words written out bit by bit from 30_encoding.md R59, values from 95_test_vectors.md section 4 -/

theorem test_decode_csrrw : decodeWord 0b001101000000_00110_001_00101_1110011#32 = .ok (.csrrw 5#5 0x340#12 6#5) := by decide
theorem test_decode_csrrs : decodeWord 0b001101000000_00101_010_00101_1110011#32 = .ok (.csrrs 5#5 0x340#12 5#5) := by decide
theorem test_decode_csrrc : decodeWord 0b001101000000_00110_011_00101_1110011#32 = .ok (.csrrc 5#5 0x340#12 6#5) := by decide
theorem test_decode_csrrwi : decodeWord 0b001101000000_10101_101_00101_1110011#32 = .ok (.csrrwi 5#5 0x340#12 21#5) := by decide
theorem test_decode_csrrsi : decodeWord 0b001101000000_10101_110_00101_1110011#32 = .ok (.csrrsi 5#5 0x340#12 21#5) := by decide
theorem test_decode_csrrci : decodeWord 0b001101000000_10101_111_00101_1110011#32 = .ok (.csrrci 5#5 0x340#12 21#5) := by decide
theorem test_decode_csrr_of_mhartid : decodeWord 0xF1402573#32 = .ok (.csrrs 10#5 0xF14#12 0#5) := by decide
theorem test_decode_all_ones : decodeWord 0xFFFFFFF3#32 = .ok (.csrrci 31#5 0xFFF#12 31#5) := by decide

theorem test_other_words_refused :
    decodeWord 0x00000073#32 = .error (.notCsrFunct3 0x00000073#32) ∧
    decodeWord 0x30200073#32 = .error (.notCsrFunct3 0x30200073#32) ∧
    decodeWord 0x34034073#32 = .error (.notCsrFunct3 0x34034073#32) ∧
    decodeWord 0x34031033#32 = .error (.notSystemOpcode 0x34031033#32) ∧
    decodeWord 0x34031072#32 = .error (.notSystemOpcode 0x34031072#32) := by decide

/-- 30_encoding.md R32's own bytes: the word 0x340293F3 is stored F3 93 02 34. -/
theorem test_bytes_are_little_endian :
    bytesOfWord 0x340293F3#32 = [0xF3#8, 0x93#8, 0x02#8, 0x34#8] ∧
    decode [0xF3#8, 0x93#8, 0x02#8, 0x34#8, 0x99#8] = .ok (.csrrw 7#5 0x340#12 5#5, [0x99#8]) ∧
    decode [0xF3#8, 0x93#8, 0x02#8] = .error .truncated := by decide

/-- The words of the table of 95_test_vectors.md section 1.5. -/
theorem test_pseudo_words :
    encode (Pseudo.csrr 5#5 0x340#12).expand = 0x340022F3#32 ∧ encode (Pseudo.csrw 0x340#12 6#5).expand = 0x34031073#32 ∧
    encode (Pseudo.csrwi 0x340#12 21#5).expand = 0x340AD073#32 ∧ encode (Pseudo.csrs 0x340#12 6#5).expand = 0x34032073#32 ∧
    encode (Pseudo.csrc 0x340#12 6#5).expand = 0x34033073#32 ∧ encode (Pseudo.csrsi 0x340#12 3#5).expand = 0x3401E073#32 ∧
    encode (Pseudo.csrci 0x340#12 3#5).expand = 0x3401F073#32 := by decide

theorem test_text : (Instr.csrrw 5#5 0x7C2#12 31#5).text = "CSRRW x5, 0x7C2, x31" := by decide

/-! ### Steps: a small state on the fixture, pc = 0x1000, and what is looked at after one instruction -/

/-- A hart on the fixture at pc 0x1000, with the given registers and cells. -/
def start (n : Nat) (regs : List (RegNum × Nat)) (cells : List (Nat × Nat)) : Hart n :=
  let cs := cells.foldl (fun cs kv => cs.setCell kv.1 (BitVec.ofNat n kv.2)) (Hart.reset n).cs
  regs.foldl (fun h rv => writeX h rv.1 (BitVec.ofNat n rv.2)) { Hart.reset n with pc := 0x1000#n, cs := cs }

/-- pc, registers and cells after one instruction; nothing where it does not go on. -/
def after {n : Nat} (i : Instr) (h : Hart n) (regs : List RegNum) (cells : List Nat) : List Nat :=
  match exec i { xlen := n, hart := h } with
  | .next s => s.hart.pc.toNat :: (regs.map fun r => (readX s.hart r).toNat) ++ cells.map fun k => (s.hart.cs.cell k).toNat
  | .fault _ => []
  | .refused _ => []

/-- The fault an outcome stops with. -/
def faultOf : Host.Outcome State Fault Refusal → Option Fault
  | .next _ => none
  | .fault r => some r
  | .refused _ => none

/-- The refusal an outcome stops with. -/
def refusalOf : Host.Outcome State Fault Refusal → Option Refusal
  | .next _ => none
  | .fault _ => none
  | .refused r => some r

/-- W9: XLEN 64, an 8-bit CSR is read with zeros above bit 7 and keeps bits 7:0 of the operand. -/
theorem test_csrrw_narrow_csr_at_64 :
    after (.csrrw 5#5 0x7C1#12 6#5) (start 64 [(5, 0x5555555555555555), (6, 0xFFFFFFFFFFFFFFFF)] [(cellNarrow, 0x80)])
      [5] [cellNarrow] = [0x1004, 0x80, 0xFF] := by decide

/-- B5: the read lights the bulb, then the odd write turns it off; count rises by one. -/
theorem test_csrrw_reads_then_writes :
    after (.csrrw 5#5 0x7C0#12 6#5) (start 32 [(5, 0x55555555), (6, 3)] [(cellCount, 100)])
      [5] [cellBval, cellLit, cellCount] = [0x1004, 0, 3, 0, 101] := by decide

/-- F5: a register other than `x0` that holds zero: whole-register side effect yes, field side effects no. -/
theorem test_csrrs_zero_in_a_register :
    after (.csrrs 5#5 0x7C2#12 6#5) (start 32 [(5, 0x55555555), (6, 0)] [(cellFval, 0xA5)])
      [5] [cellFval, cellHitA, cellHitB, cellHitW] = [0x1004, 0xA5, 0xA5, 0, 0, 1] := by decide

/-- CNT4: the same zero is a write of 100 to the counter, which suppresses the increment. -/
theorem test_csrrs_zero_write_suppresses_increment :
    after (.csrrs 5#5 0xB02#12 6#5) (start 32 [(5, 0x55555555), (6, 0)] [(cellCount, 100)])
      [5] [cellCount] = [0x1004, 0x64, 100] := by decide

/-- C4: `rd` = `rs1`, the mask is the register's initial value. -/
theorem test_csrrc_same_register :
    after (.csrrc 5#5 0x340#12 5#5) (start 32 [(5, 0xFF)] [(cellScratch, 0xFF)]) [5] [cellScratch] = [0x1004, 0xFF, 0] := by
  decide

/-- C7: mask bits above the CSR's width are ignored. -/
theorem test_csrrc_bits_that_are_not_writable :
    after (.csrrc 5#5 0x7C1#12 6#5) (start 32 [(6, 0xFFFFFFF0)] [(cellNarrow, 0xFF)]) [5] [cellNarrow] =
      [0x1004, 0xFF, 0xF] := by decide

/-- WI5: XLEN 64, the immediate 31 is 0x1F and not all ones. -/
theorem test_csrrwi_zero_extends :
    after (.csrrwi 5#5 0x340#12 31#5) (start 64 [] [(cellScratch, 0xFFFFFFFFFFFFFFFF)]) [5] [cellScratch] =
      [0x1004, 0xFFFFFFFFFFFFFFFF, 0x1F] := by decide

/-- F12: all fields act, immediate zero included; `rd` = `x0`. -/
theorem test_csrrwi_acts_on_all_fields :
    after (.csrrwi 0#5 0x7C2#12 0#5) (start 32 [] [(cellFval, 0xA5)]) [0] [cellFval, cellHitA, cellHitB, cellHitW] =
      [0x1004, 0, 0, 1, 1, 1] := by decide

/-- B9: `rd` = `x0` and immediate zero still reads: the bulb lights. -/
theorem test_csrrsi_always_reads :
    after (.csrrsi 0#5 0x7C0#12 0#5) (start 32 [] [(cellBval, 4)]) [0] [cellBval, cellLit] = [0x1004, 0, 4, 1] := by decide

/-- F8: immediate 16 is bit 4: field B. -/
theorem test_csrrsi_touches_field_b :
    after (.csrrsi 0#5 0x7C2#12 16#5) (start 32 [] [(cellFval, 0xA5)]) [] [cellFval, cellHitA, cellHitB, cellHitW] =
      [0x1004, 0xB5, 0, 1, 1] := by decide

/-- CI5: XLEN 64, bits 63:5 are kept. -/
theorem test_csrrci_keeps_the_upper_bits :
    after (.csrrci 5#5 0x340#12 31#5) (start 64 [] [(cellScratch, 0xFFFFFFFFFFFFFFFF)]) [5] [cellScratch] =
      [0x1004, 0xFFFFFFFFFFFFFFFF, 0xFFFFFFFFFFFFFFE0] := by decide

/-- B17: read (on), then 5 AND NOT 1 = 4 is even: stays on. -/
theorem test_csrrci_writes_an_even_value :
    after (.csrrci 5#5 0x7C0#12 1#5) (start 32 [] [(cellBval, 5)]) [5] [cellBval, cellLit] = [0x1004, 5, 4, 1] := by decide

/-- RO3, RO5, RO9, RO10 and NX3: which accesses raise, with the instruction's pc and word. -/
theorem test_what_raises :
    let h := start 32 [(6, 0)] [(cellCount, 100)]
    after (.csrrsi 5#5 0xC02#12 0#5) h [5] [cellCount] = [0x1004, 0x64, 101] ∧
    faultOf (exec (.csrrs 5#5 0xC02#12 6#5) ⟨32, h⟩) = some (.illegalInstruction 0x1000 0xC02322F3#32) ∧
    faultOf (exec (.csrrw 5#5 0xC02#12 0#5) ⟨32, h⟩) = some (.illegalInstruction 0x1000 0xC02012F3#32) ∧
    faultOf (exec (.csrrwi 5#5 0xC02#12 0#5) ⟨32, h⟩) = some (.illegalInstruction 0x1000 0xC02052F3#32) ∧
    faultOf (exec (.csrrsi 0#5 0x7FF#12 0#5) ⟨32, h⟩) = some (.illegalInstruction 0x1000 0x7FF06073#32) := by decide

/-- The fixture with a trap layer that saves pc, cause and word in cells 20 to 22 and goes to the address in cell 23. -/
def trapping : Platform 32 :=
  { fixture 32 with trap := .handler [⟨20, .epc⟩, ⟨21, .cause⟩, ⟨22, .instr 0⟩] (.cell 23) }

/-- P3, last instruction, with a trap layer: it receives pc, cause 2 and the word 0xC0239073 (60_exceptions.md R125);
count does not rise. -/
theorem test_trap_layer_receives :
    after (.csrrw 0#5 0xC02#12 7#5) (onPlatform (start 32 [(7, 11)] [(cellCount, 12), (23, 0x80)]) trapping) [7]
      [20, 21, 22, cellCount] = [0x80, 11, 0x1000, 2, 0xC0239073, 12] := by decide

/-- The pc of a step's next state; nothing where it does not go on. -/
def stepPc (s : State) : Option Nat :=
  match step s with
  | .next s' => some s'.hart.pc.toNat
  | .fault _ => none
  | .refused _ => none

theorem exists_next_of_stepPc {s : State} {a : Nat} (h : stepPc s = some a) : ∃ s', step s = .next s' := by
  unfold stepPc at h
  split at h
  · exact ⟨_, by assumption⟩
  · cases h
  · cases h

/-- A machine on the fixture with one instruction placed at pc. -/
def placed (w : Nat) : State := State.withFetchWord { xlen := 32, hart := start 32 [(6, 9)] [(cellCount, 100)] } 32 w

/-- W2's word, fetched and run by one step; a word that is not Zicsr is refused (30_encoding.md R60). -/
theorem test_step :
    stepPc (placed 0x34031073) = some 0x1004 ∧
    refusalOf (step (placed 0x00000073)) = some (.notZicsr (.notCsrFunct3 0x00000073#32)) ∧
    faultOf (step State.reset) = some (.fetchNothing 0) := by decide

/-! ### A witness for the hypotheses of each obligation that has some -/

/-- The hart of the witnesses: `x6` holds zero, `x7` holds 9, count is 100. -/
def h0 : Hart 32 := start 32 [(6, 0), (7, 9)] [(cellCount, 100), (cellNarrow, 0x5A)]

/-- A word placed at pc 0x1000 of `h0`. -/
def hFetch (w : InstrWord) : Hart 32 := placeWord h0 w

theorem witness_DecodeOfEncodeIsTheInstruction : (Instr.csrrci 31#5 0xFFF#12 31#5).wellFormed = true := by decide

theorem witness_EncodeOfDecodedWordIsTheWord : decodeWord 0xFFFFFFF3#32 = .ok (.csrrci 31#5 0xFFF#12 31#5) := by decide

theorem witness_DecodingFollowsMaskAndMatch :
    0xFFFF9FF3#32 &&& 0x0000707F#32 = 0x00001073#32 ∧ 0xFFFFAFF3#32 &&& 0x0000707F#32 = 0x00002073#32 ∧
    0xFFFFBFF3#32 &&& 0x0000707F#32 = 0x00003073#32 ∧ 0xFFFFDFF3#32 &&& 0x0000707F#32 = 0x00005073#32 ∧
    0xFFFFEFF3#32 &&& 0x0000707F#32 = 0x00006073#32 ∧ 0xFFFFFFF3#32 &&& 0x0000707F#32 = 0x00007073#32 ∧
    0xFFFFCFF3#32 &&& 0x0000707F#32 ∉
      [0x00001073#32, 0x00002073#32, 0x00003073#32, 0x00005073#32, 0x00006073#32, 0x00007073#32] := by decide

/-- The highest pc of a 16-bit aligned hart: the word's last bytes lie at addresses 0 and 1. -/
theorem witness_WordPlacedAtPcIsFetched :
    xlenOk 32 = true ∧ pcAligned { fixture 32 with ialign := .bits16 } 0xFFFFFFFE#32 = true ∧
    pcAligned (fixture 32) 0xFFFFFFFC#32 = true ∧ decodeWord 0xFFFFFFF3#32 = .ok (.csrrci 31#5 0xFFF#12 31#5) := by decide

theorem witness_StepRunsTheDecodedInstruction :
    let h := hFetch 0x340312F3#32
    pcAligned h.platform h.pc = true ∧ readByte h h.pc.toNat = some 0xF3#8 ∧ readByte h (h.pc + 1#32).toNat = some 0x12#8 ∧
    readByte h (h.pc + 2#32).toNat = some 0x03#8 ∧ readByte h (h.pc + 3#32).toNat = some 0x34#8 ∧
    decodeWord (0x34#8 ++ 0x03#8 ++ 0x12#8 ++ 0xF3#8) = .ok (.csrrw 5#5 0x340#12 6#5) ∧
    accessAllowed h 0x340#12 true = true ∧
    faultOf (exec (.csrrw 5#5 0xC02#12 6#5) ⟨32, h⟩) = some (.illegalInstruction 0x1000 0xC02312F3#32) := by decide

theorem witness_StepRefusesWordsThatAreNoCsrInstruction :
    let h := hFetch 0x34034073#32
    pcAligned h.platform h.pc = true ∧ readByte h h.pc.toNat = some 0x73#8 ∧ readByte h (h.pc + 1#32).toNat = some 0x40#8 ∧
    readByte h (h.pc + 2#32).toNat = some 0x03#8 ∧ readByte h (h.pc + 3#32).toNat = some 0x34#8 ∧
    (0x34034073#32).extractLsb' 0 7 = 0b1110011#7 ∧ (0x34034073#32).extractLsb' 12 3 = 0b100#3 ∧
    (0x00000073#32).extractLsb' 0 7 = 0b1110011#7 ∧ (0x00000073#32).extractLsb' 12 3 = 0b000#3 ∧
    (0x34031033#32).extractLsb' 0 7 ≠ 0b1110011#7 := by decide

/-- At the first and at the last of the four bytes: none placed, and the first three placed. -/
theorem witness_FetchStopsOnMisalignedPcOrAbsentByte :
    let h3 := placeByte (placeByte (placeByte h0 0x1000 0x73#8) 0x1001 0x10#8) 0x1002 0x03#8
    pcAligned h0.platform 0x1002#32 = false ∧ pcAligned h0.platform h0.pc = true ∧
    readByte h0 (h0.pc + 0#32).toNat = none ∧
    (∀ j, j < 3 → (readByte h3 (h3.pc + BitVec.ofNat 32 j).toNat).isSome = true) ∧
    readByte h3 (h3.pc + 3#32).toNat = none := by
  decide

/-- The hypotheses of the statements of the write forms, CSRRW and CSRRWI. -/
theorem witness_CsrrwSwapsCsrAndRegister : Accessible h0 0x340#12 ∧ NotReadOnly h0 0x340#12 := by decide
theorem witness_CsrrwiWritesTheImmediate : Accessible h0 0x7C2#12 ∧ NotReadOnly h0 0x7C2#12 := by decide

/-- Those of the set and clear forms: a CSR that is not read-only, and a read-only CSR with a zero field. -/
theorem witness_CsrrsReadsAndSetsBits :
    (Accessible h0 0x340#12 ∧ NotReadOnly h0 0x340#12) ∧ (Accessible h0 0xC02#12 ∧ ¬NotReadOnly h0 0xC02#12) := by decide
theorem witness_CsrrcReadsAndClearsBits :
    (Accessible h0 0x7C1#12 ∧ NotReadOnly h0 0x7C1#12) ∧ (Accessible h0 0xC02#12 ∧ ¬NotReadOnly h0 0xC02#12) := by decide
theorem witness_CsrrsiReadsAndSetsBits :
    (Accessible h0 0xB02#12 ∧ NotReadOnly h0 0xB02#12) ∧ (Accessible h0 0xC02#12 ∧ ¬NotReadOnly h0 0xC02#12) := by decide
theorem witness_CsrrciReadsAndClearsBits :
    (Accessible h0 0x7C0#12 ∧ NotReadOnly h0 0x7C0#12) ∧ (Accessible h0 0xC02#12 ∧ ¬NotReadOnly h0 0xC02#12) := by decide

theorem witness_ReadWriteTableAsAccesses :
    (Accessible h0 0x340#12 ∧ NotReadOnly h0 0x340#12 ∧ (31#5 ≠ 0#5)) ∧ Accessible h0 0xC02#12 := by decide

/-- The 8-bit plain CSR of the fixture, and the one of full width. -/
theorem witness_PlainCsrValueAfterAWrite :
    (csrAt h0.platform 0x7C1#12 = some (plainCsr 0x7C1#12 cellNarrow 8 0xFF#32) ∧ 0xFF#32 &&& ~~~ lowOnes 32 8 = 0#32) ∧
    (csrAt h0.platform 0x340#12 = some (plainCsr 0x340#12 cellScratch 32 (BitVec.allOnes 32)) ∧
      BitVec.allOnes 32 &&& ~~~ lowOnes 32 32 = 0#32) ∧ (31#5 ≠ 0#5) := by decide

/-- Bit 7 is writable and bit 8 is not. -/
theorem witness_SetAndClearChangeExactlyTheWritableMaskBits :
    h0.platform.wellFormed = true ∧ csrAt h0.platform 0x7C2#12 = some (fieldCsr 32) ∧ (fieldCsr 32).onRead = [] ∧
    (fieldCsr 32).shown = .cell (fieldCsr 32).cell ∧ (fieldCsr 32).stored = .value ∧ Accessible h0 0x7C2#12 ∧
    NotReadOnly h0 0x7C2#12 ∧ 31#5 ≠ 0#5 ∧ (csrWritable h0.platform 0x7C2#12 h0.cs).getLsbD 7 = true ∧
    (csrWritable h0.platform 0x7C2#12 h0.cs).getLsbD 8 = false := by decide

theorem witness_ZeroInARegisterStillWrites :
    csrAt h0.platform 0x7C2#12 = some (fieldCsr 32) ∧ Accessible h0 0x7C2#12 ∧ 6#5 ≠ 0#5 ∧ readX h0 6#5 = 0#32 ∧
    NotReadOnly h0 0x7C2#12 ∧ (csrAt h0.platform 0xC02#12).isSome = true ∧ Accessible h0 0xC02#12 ∧
    csrReadOnly h0.platform 0xC02#12 = true := by decide

theorem witness_WriteFormsWriteZeroOperands :
    (Accessible h0 0x7C0#12 ∧ NotReadOnly h0 0x7C0#12) ∧
    (Accessible h0 0xC02#12 ∧ csrReadOnly h0.platform 0xC02#12 = true) := by decide

theorem witness_ReadSideEffectsHappenOnEveryReadAndOnlyThen :
    (Accessible h0 0x7C0#12 ∧ NotReadOnly h0 0x7C0#12 ∧ 31#5 ≠ 0#5) ∧ Accessible h0 0xC02#12 := by decide

theorem witness_NoWriteNoWriteSideEffect :
    (writesCsr (.csrrs 5#5 0xC02#12 0#5) = false ∧ writesCsr (.csrrci 0#5 0xC02#12 0#5) = false) ∧
    Accessible h0 0xC02#12 := by decide

/-- A write form and a clear form on the CSR with two fields. -/
theorem witness_FieldSideEffectsOfTheTouchedFields :
    h0.platform.wellFormed = true ∧ csrAt h0.platform 0x7C2#12 = some (fieldCsr 32) ∧
    writesCsr (.csrrwi 5#5 0x7C2#12 0#5) = true ∧ writesCsr (.csrrci 5#5 0x7C2#12 16#5) = true ∧
    Accessible h0 0x7C2#12 ∧ NotReadOnly h0 0x7C2#12 := by decide

theorem witness_ReadOnlyCsrRaisesOnWritesOnly :
    Accessible h0 0xC02#12 ∧ csrReadOnly h0.platform 0xC02#12 = true ∧ 1#5 ≠ 0#5 := by decide

theorem witness_MissingCsrRaises :
    csrExists h0.platform (instrCsr (.csrrsi 0#5 0x7FF#12 0#5)) h0.cs = false ∧
    csrExists h0.platform (instrCsr (.csrrw 31#5 0xFFF#12 31#5)) h0.cs = false ∧
    csrExists h0.platform (instrCsr (.csrrs 0#5 0x000#12 0#5)) h0.cs = false := by decide

/-- A hart on which the CSR at 0x340 may be accessed only while cell 30 is not zero. -/
def hPriv : Hart 32 := onPlatform h0 (oneCsr { addr := 0x340#12, cell := 0, width := 32, allowed := .cell 30 })

theorem witness_FailedPrivilegeCheckRaises :
    csrExists hPriv.platform 0x340#12 hPriv.cs = true ∧ csrPrivOk hPriv.platform 0x340#12 hPriv.cs = false := by decide

/-- On a hart without and on one with a trap layer. -/
theorem witness_RaiseHandsOverToTakeTrap :
    (accessAllowed h0 (instrCsr (.csrrw 0#5 0xC02#12 7#5)) (writesCsr (.csrrw 0#5 0xC02#12 7#5)) = false ∧
      h0.platform.trap = .terminal) ∧
    (accessAllowed (onPlatform h0 trapping) 0xC02#12 true = false ∧
      (onPlatform h0 trapping).platform.trap = .handler [⟨20, .epc⟩, ⟨21, .cause⟩, ⟨22, .instr 0⟩] (.cell 23)) := by decide

/-- An instruction that reads and writes the counter, and one that only reads its read-only view. -/
theorem witness_WriteReplacesTheImplicitUpdate :
    Accessible h0 (instrCsr (.csrrsi 5#5 0xB02#12 1#5)) ∧ NotReadOnly h0 (instrCsr (.csrrsi 5#5 0xB02#12 1#5)) ∧
    readsCsr (.csrrsi 5#5 0xB02#12 1#5) = true ∧ instrRd (.csrrsi 5#5 0xB02#12 1#5) ≠ 0#5 ∧
    writesCsr (.csrrsi 5#5 0xB02#12 1#5) = true ∧
    Accessible h0 (instrCsr (.csrrs 5#5 0xC02#12 0#5)) ∧ writesCsr (.csrrs 5#5 0xC02#12 0#5) = false := by decide

theorem witness_CounterReadsBeforeAndWriteReplacesIncrement :
    csrAt h0.platform 0xB02#12 = some (plainCsr 0xB02#12 cellCount 32 (BitVec.allOnes 32)) ∧
    h0.platform.implicits = [increment cellCount] ∧ 1 ≤ 32 ∧ 5#5 ≠ 0#5 := by decide

theorem witness_ValueWrittenIsReadByTheNextInstruction :
    csrAt h0.platform 0xB02#12 = some (plainCsr 0xB02#12 cellCount 32 (BitVec.allOnes 32)) ∧
    BitVec.allOnes 32 &&& ~~~ lowOnes 32 32 = 0#32 ∧ writesCsr (.csrrwi 0#5 0xB02#12 10#5) = true ∧
    readsCsr (.csrrs 6#5 0xB02#12 0#5) = true ∧ instrRd (.csrrs 6#5 0xB02#12 0#5) ≠ 0#5 := by decide

theorem witness_BitsAboveTheWidthReadZero :
    csrAt h0.platform 0x7C1#12 = some (plainCsr 0x7C1#12 cellNarrow 8 0xFF#32) ∧
    (plainCsr 0x7C1#12 cellNarrow 8 0xFF#32).width ≤ 8 := by decide

theorem witness_WriteLeavesBitsThatAreNotWritable :
    (fixture 32).wellFormed = true ∧ (csrWritable (fixture 32) 0x7C1#12 h0.cs).getLsbD 8 = false ∧
    (csrWritable (fixture 32) 0xC02#12 h0.cs).getLsbD 0 = false := by decide

theorem witness_WriteStoresInWritableBits :
    (fixture 32).wellFormed = true ∧ csrAt (fixture 32) 0x7C1#12 = some (plainCsr 0x7C1#12 cellNarrow 8 0xFF#32) ∧
    (plainCsr 0x7C1#12 cellNarrow 8 0xFF#32).shown = .cell cellNarrow ∧
    (plainCsr 0x7C1#12 cellNarrow 8 0xFF#32).stored = .value ∧
    (csrWritable (fixture 32) 0x7C1#12 h0.cs).getLsbD 7 = true := by decide

/-- The counter and its read-only view; and the counter's increment when another CSR, 0x340, is written. -/
theorem witness_ImplicitUpdateSkipsTheWrittenCsrs :
    (0xB02#12 ∈ [0xB02#12] ∧ (csrAt (fixture 32) 0xB02#12).map (·.shown) = some (.cell cellCount) ∧
      (csrAt (fixture 32) 0xC02#12).map (·.shown) = some (.cell cellCount)) ∧
    ((fixture 32).implicits = [] ++ increment cellCount :: [] ∧ sparesCell (xlen := 32) cellCount [] = true ∧
      mentionsCell cellCount (increment (xlen := 32) cellCount).expr = true ∧
      mentionsCell cellScratch (increment (xlen := 32) cellCount).expr = false ∧
      csrAt (fixture 32) 0x340#12 = some (plainCsr 0x340#12 cellScratch 32 (BitVec.allOnes 32)) ∧
      cellScratch ≠ cellCount ∧
      mentionsCell cellCount (plainCsr 0x340#12 cellScratch 32 (BitVec.allOnes 32)).shown = false) := by decide

/-- A plain CSR, and one of a standard's shape whose write has a side effect that looks at the value. -/
theorem witness_StandardCsrReadsAndMasksHaveNoSideEffect :
    let plain := plainCsr 0x340#12 cellScratch 32 (BitVec.allOnes 32)
    let acting : CsrDesc 32 := { bulbCsr 32 with onRead := [] }
    csrAt h0.platform 0x340#12 = some plain ∧ plain.standardShape = true ∧ Accessible h0 0x340#12 ∧
    looksTouched plain.stored = false ∧ plain.onWrite = [] ∧
    csrAt (oneCsr acting) 0x7C0#12 = some acting ∧ acting.standardShape = true ∧ looksTouched acting.stored = false ∧
    acting.onWrite ≠ [] ∧ (∀ a ∈ acting.onWrite, looksTouched a.expr = false) := by decide

/-- An odd and an even operand. -/
theorem witness_BulbReadLightsAndOddWriteTurnsOff :
    csrAt h0.platform 0x7C0#12 = some (bulbCsr 32) ∧ sparesCell cellLit h0.platform.implicits = true ∧ 1 ≤ 32 ∧
    5#5 ≠ 0#5 ∧ (readX h0 7#5).getLsbD 0 = true ∧ (readX h0 6#5).getLsbD 0 = false := by decide

theorem witness_SourceRegisterIsReadBeforeTheDestinationIsWritten :
    csrAt h0.platform 0x340#12 = some (plainCsr 0x340#12 cellScratch 32 (BitVec.allOnes 32)) ∧ 1 ≤ 32 ∧ 7#5 ≠ 0#5 ∧ 31#5 ≠ 0#5 := by
  decide

theorem witness_ImmediateFormsReadNoIntegerRegister :
    accessAllowed h0 0x340#12 (writesCsr (.csrrwi 0#5 0x340#12 1#5)) = true ∧
    accessAllowed h0 0x340#12 (writesCsr (.csrrsi 5#5 0x340#12 1#5)) = true ∧
    readsCsr (.csrrwi 0#5 0x340#12 1#5) = false ∧ readsCsr (.csrrsi 5#5 0x340#12 1#5) = true := by decide

theorem witness_ImmediateIsZeroExtended :
    xlenOk 32 = true ∧ csrAt h0.platform 0x340#12 = some (plainCsr 0x340#12 cellScratch 32 (BitVec.allOnes 32)) ∧
    31#5 ≠ 0#5 ∧ 5 ≤ 5 := by decide

theorem witness_InstructionsLeaveOtherRegistersAndMemory :
    ∃ h', accessAllowed h0 (instrCsr (.csrrw 0#5 0x340#12 7#5)) (writesCsr (.csrrw 0#5 0x340#12 7#5)) = true ∧
      Goes (.csrrw 0#5 0x340#12 7#5) h0 h' ∧ readsCsr (.csrrw 0#5 0x340#12 7#5) = false :=
  ⟨_, by decide, goes_of_allowed (by decide), by decide⟩

/-- Cell `hitA` under a set that touches no field of another CSR: the CSR at 0x340 is read and written. -/
theorem witness_InstructionsLeaveOtherCells :
    ∃ h', csrAt h0.platform 0x340#12 = some (plainCsr 0x340#12 cellScratch 32 (BitVec.allOnes 32)) ∧
      accessAllowed h0 0x340#12 (writesCsr (.csrrs 5#5 0x340#12 7#5)) = true ∧ Goes (.csrrs 5#5 0x340#12 7#5) h0 h' ∧
      sparesCell cellHitA (plainCsr 0x340#12 cellScratch 32 (BitVec.allOnes 32)).onRead = true ∧
      cellScratch ≠ cellHitA ∧ sparesCell cellHitA h0.platform.implicits = true :=
  ⟨_, by decide, by decide, goes_of_allowed (by decide), by decide, by decide, by decide⟩

theorem witness_ResetMeetsTheInvariant : 8 ≤ 8 := by decide

/-- A hart in the middle of a run: a word of CSRRW is placed at pc and the invariant holds. -/
theorem placed_meets_the_invariant : HartInv (placed 0x34031073).hart :=
  { platformWf := by decide
    memory := by decide
    cells := by decide
    history :=
      { ordered := List.Pairwise.nil
        past := fun _ h => nomatch h
        own := fun _ h => nomatch h
        marked := fun _ h => nomatch h } }

theorem witness_EveryStepKeepsTheInvariant :
    ∃ s', HartInv (placed 0x34031073).hart ∧ step (placed 0x34031073) = .next s' :=
  (exists_next_of_stepPc test_step.1).imp fun _ h => ⟨placed_meets_the_invariant, h⟩

theorem witness_NoStepChangesParametersOrMemory : ∃ s', step (placed 0x34031073) = .next s' :=
  exists_next_of_stepPc test_step.1

theorem witness_StepAdvancesPcByFourAndKeepsItAligned :
    xlenOk 32 = true ∧ (placed 0x34031073).hart.platform.trap = .terminal ∧ ∃ s', step (placed 0x34031073) = .next s' :=
  ⟨by decide, by decide, exists_next_of_stepPc test_step.1⟩

/-- A CSR like the source's `mip`: bits 3:0 are driven from outside on signal 0. -/
def hPending : Hart 32 :=
  onPlatform h0 (oneCsr { addr := 0x344#12, cell := 0, width := 32, shown := drivenFrom 0 0 0xF#32 })

theorem witness_BetweenInstructionsOnlyDrivenBitsChange :
    ((csrAt h0.platform 0x340#12).map fun d => looksOutside d.shown) = some false ∧
    ((csrAt hPending.platform 0x344#12).map fun d => d.shown) = some (drivenFrom 0 0 0xF#32) ∧
    (0xF#32).getLsbD 4 = false := by decide

/-- An instruction that reads and writes the counter, and one that only reads its read-only view. -/
theorem witness_WrittenCsrDoesNotDependOnTheImplicitUpdate :
    (Accessible h0 (instrCsr (.csrrsi 5#5 0xB02#12 1#5)) ∧ NotReadOnly h0 (instrCsr (.csrrsi 5#5 0xB02#12 1#5)) ∧
      readsCsr (.csrrsi 5#5 0xB02#12 1#5) = true ∧ instrRd (.csrrsi 5#5 0xB02#12 1#5) ≠ 0#5 ∧
      writesCsr (.csrrsi 5#5 0xB02#12 1#5) = true) ∧
    (Accessible h0 (instrCsr (.csrrs 5#5 0xC02#12 0#5)) ∧ writesCsr (.csrrs 5#5 0xC02#12 0#5) = false) := by decide

/-- A CSR whose read, whole-register write and field side effects each put 7 in a cell of their own. -/
def markedCsr : CsrDesc 32 :=
  { addr := 0x800#12, cell := 0, width := 32
    onRead := [⟨10, .lit 7#32⟩], onWrite := [⟨11, .lit 7#32⟩]
    fields := [{ hi := 3, lo := 0, effect := [⟨12, .lit 7#32⟩] }, { hi := 31, lo := 31, effect := [⟨13, .lit 7#32⟩] }] }

/-- The hart of the witnesses with that CSR alone. -/
def hMarked : Hart 32 := onPlatform h0 (oneCsr markedCsr)

/-- 42_csr_access_rules.md R77 and R79: without a read only the write's marks, without a write only the read's, and of
the fields those that the mask touches. -/
theorem test_marks :
    after (.csrrw 0#5 0x800#12 7#5) hMarked [] [10, 11, 12, 13] = [0x1004, 0, 7, 7, 7] ∧
    after (.csrrs 0#5 0x800#12 0#5) hMarked [] [10, 11, 12, 13] = [0x1004, 7, 0, 0, 0] ∧
    after (.csrrs 0#5 0x800#12 6#5) hMarked [] [10, 11, 12, 13] = [0x1004, 7, 7, 0, 0] ∧
    after (.csrrci 0#5 0x800#12 8#5) hMarked [] [10, 11, 12, 13] = [0x1004, 7, 7, 7, 0] := by decide

/-- Each of the four clauses: cell 10 is marked by the read side effects alone, cell 11 by the write's alone. -/
theorem witness_SideEffectsOccurExactlyWhenTheAccessDoes :
    csrAt hMarked.platform 0x800#12 = some markedCsr ∧ Accessible hMarked 0x800#12 ∧ NotReadOnly hMarked 0x800#12 ∧
    sparesCell 10 hMarked.platform.implicits = true ∧ sparesCell 11 hMarked.platform.implicits = true ∧
    (markedCsr.cell ≠ 10 ∧ sparesCell 10 markedCsr.onWrite = true ∧
      (∀ f ∈ markedCsr.fields, sparesCell 10 f.effect = true) ∧ marksCell 10 7#32 markedCsr.onRead = true) ∧
    (markedCsr.cell ≠ 11 ∧ sparesCell 11 markedCsr.onRead = true ∧
      (∀ f ∈ markedCsr.fields, sparesCell 11 f.effect = true) ∧ marksCell 11 7#32 markedCsr.onWrite = true) ∧
    (instrOp (.csrrw 0#5 0x800#12 7#5) = .write ∧ instrRd (.csrrw 0#5 0x800#12 7#5) = 0#5) ∧
    (instrOp (.csrrs 0#5 0x800#12 0#5) ≠ .write ∧ instrSrc (.csrrs 0#5 0x800#12 0#5) = 0#5) ∧
    (instrOp (.csrrw 5#5 0x800#12 7#5) = .write ∧ instrRd (.csrrw 5#5 0x800#12 7#5) ≠ 0#5) ∧
    (instrOp (.csrrc 0#5 0x800#12 6#5) ≠ .write ∧ instrSrc (.csrrc 0#5 0x800#12 6#5) ≠ 0#5) := by decide

/-- Field 31:31, at the top of the register, marks cell 13 alone; a write form, and set forms that touch it and not. -/
theorem witness_AFieldActsExactlyWhenItIsTouched :
    let f : FieldEffect 32 := { hi := 31, lo := 31, effect := [⟨13, .lit 7#32⟩] }
    csrAt hMarked.platform 0x800#12 = some markedCsr ∧ Accessible hMarked 0x800#12 ∧ NotReadOnly hMarked 0x800#12 ∧
    (markedCsr.cell ≠ 13 ∧ sparesCell 13 markedCsr.onRead = true ∧ sparesCell 13 hMarked.platform.implicits = true ∧
      f ∈ markedCsr.fields ∧ f.lo ≤ f.hi ∧ f.hi < 32 ∧ marksCell 13 7#32 f.effect = true ∧
      sparesCell 13 markedCsr.onWrite = true ∧ ∀ g ∈ markedCsr.fields, g ≠ f → sparesCell 13 g.effect = true) ∧
    (markedCsr.cell ≠ 11 ∧ sparesCell 11 markedCsr.onRead = true ∧ marksCell 11 7#32 markedCsr.onWrite = true ∧
      ∀ g ∈ markedCsr.fields, sparesCell 11 g.effect = true) ∧
    instrOp (.csrrwi 5#5 0x800#12 0#5) = .write ∧ instrSrc (.csrrs 5#5 0x800#12 7#5) ≠ 0#5 ∧
    hasBitIn (instrOperand hMarked (.csrrs 5#5 0x800#12 7#5)) 31 31 = false ∧
    hasBitIn (instrOperand (writeX hMarked 7#5 0x80000000#32) (.csrrs 5#5 0x800#12 7#5)) 31 31 = true := by decide

end Sys2Proof.Tests
end

section
/-! PROOFS. The statements of 20_memory.md: what an instruction reads and writes beside the implicit modifications of
the platform, and what no step changes. -/

namespace Sys2Proof.Machine

variable {xlen : Nat}

/-! ### A CSR in the written set keeps its value under the implicit update -/

/-- The value of a CSR that the instruction wrote: the implicit update assigns none of the cells it is read from
(10_state.md R16, law L-skip). -/
theorem csrPeek_csrImplicit_written (p : Platform xlen) (cs : CS xlen) (csr : CsrAddr) (info : InstrWord) :
    csrPeek p csr (csrImplicit p cs [csr] info) = csrPeek p csr cs := by
  unfold csrPeek
  cases hd : csrAt p csr with
  | none => rfl
  | some d =>
    exact valueIn_congr (csrImplicit_moment ..) fun k hk =>
      csrImplicit_cell_of_backs p cs info (by simp [backs, hd, hk])

/-- The written CSR after the instruction is what the write made it. -/
theorem csrPeek_instrResult_of_writes {i : Instr} (h : Hart xlen) (hw : writesCsr i = true) :
    let csr := instrCsr i
    let old := csrPeek h.platform csr h.cs
    let base := if readsCsr i then csrReadEffect h.platform csr h.cs else h.cs
    csrPeek (instrResult i h).platform csr (instrResult i h).cs = csrPeek h.platform csr
      (csrWriteEffect h.platform csr base (presentedValue (instrOp i) old (instrOperand h i))
        (touchedMask (instrOp i) (instrOperand h i))) := by
  rw [instrResult_platform, instrResult_cs, hw]
  exact csrPeek_csrImplicit_written ..

/-- What the instruction reads into `rd` is the value before it. -/
theorem readX_instrResult_rd {i : Instr} (h : Hart xlen) (hr : readsCsr i = true) (hrd : instrRd i ≠ 0#5) :
    readX (instrResult i h) (instrRd i) = csrPeek h.platform (instrCsr i) h.cs := by
  rw [readX_instrResult, if_pos ⟨hr, rfl, hrd⟩]

/-! ### A hart with other implicit modifications -/

/-- The hart with `other` in place of its platform's implicit modifications. -/
abbrev withImplicits (h : Hart xlen) (other : List (Assign xlen)) : Hart xlen :=
  onPlatform h { h.platform with implicits := other }

/-- Operands are registers and immediates: no platform is looked at. -/
theorem instrOperand_onPlatform (h : Hart xlen) (p : Platform xlen) (i : Instr) :
    instrOperand (onPlatform h p) i = instrOperand h i := by
  cases i <;> rfl

/-- Whether an access is allowed looks at the CSRs alone, not at the implicit modifications. -/
theorem accessAllowed_withImplicits (h : Hart xlen) (other : List (Assign xlen)) (csr : CsrAddr) (writes : Bool) :
    accessAllowed (withImplicits h other) csr writes = accessAllowed h csr writes := rfl

/-- The written CSR is the same after the instruction, whatever the implicit modifications. -/
theorem csrPeek_instrResult_withImplicits {i : Instr} (h : Hart xlen) (other : List (Assign xlen))
    (hw : writesCsr i = true) :
    csrPeek (instrResult i (withImplicits h other)).platform (instrCsr i) (instrResult i (withImplicits h other)).cs =
      csrPeek (instrResult i h).platform (instrCsr i) (instrResult i h).cs := by
  rw [csrPeek_instrResult_of_writes _ hw, csrPeek_instrResult_of_writes _ hw, instrOperand_onPlatform]
  rfl

/-! ### The obligations -/

/-- Settles O30: the write comes before an implicit update that spares the written CSR, and `rd` takes the old value. -/
theorem writeReplacesTheImplicitUpdate : Obligations.WriteReplacesTheImplicitUpdate := by
  intro n h i hacc hro
  exact ⟨instrResult i h, goes_of_allowed (allowed_of_accessible hacc hro), readX_instrResult_rd h,
    csrPeek_instrResult_of_writes h⟩

/-- Settles O46, by the two things a step that goes on can do: an instruction, or a raise into a trap layer. -/
theorem noStepChangesParametersOrMemory : Obligations.NoStepChangesParametersOrMemory := by
  intro n h s' hs
  obtain ⟨i, h', rfl, hcases⟩ := step_next_cases hs
  refine ⟨passMoment h', rfl, ?_⟩
  rcases hcases with ⟨-, rfl⟩ | ⟨saves, target, -, -, rfl⟩
  · exact ⟨instrResult_platform i h, readByte_congr (instrResult_mem i h),
      ⟨_, (instrResult_events i h).trans (List.append_assoc ..)⟩, by rw [passMoment_moment, instrResult_moment]⟩
  · exact ⟨trapped_platform h i saves target, readByte_congr (trapped_mem h i saves target),
      ⟨[], (List.append_nil _).symm⟩, by rw [passMoment_moment, trapped_moment]⟩

/-- Settles O49: both harts allow the access, read the same old value and end with the same value of the written CSR. -/
theorem writtenCsrDoesNotDependOnTheImplicitUpdate : Obligations.WrittenCsrDoesNotDependOnTheImplicitUpdate := by
  intro n h i other hacc hro
  have allowed : accessAllowed h (instrCsr i) (writesCsr i) = true := allowed_of_accessible hacc hro
  have allowed' := (accessAllowed_withImplicits h other (instrCsr i) (writesCsr i)).trans allowed
  exact ⟨instrResult i h, instrResult i (withImplicits h other), goes_of_allowed allowed, goes_of_allowed allowed',
    fun hr hrd => ⟨readX_instrResult_rd h hr hrd, readX_instrResult_rd (withImplicits h other) hr hrd⟩,
    csrPeek_instrResult_withImplicits h other⟩

end Sys2Proof.Machine
end

section
/-! PROOFS. The statements of 42_csr_access_rules.md: what the six instructions read and write (R70 to R74, R76, R100 to
R112), and which accesses of a read-only CSR raise. -/

namespace Sys2Proof.Machine

variable {xlen : Nat}

/-! ### Which instructions read and write (42_csr_access_rules.md R70) -/

theorem readsCsr_iff {i : Instr} : readsCsr i = true ↔ instrOp i ≠ .write ∨ instrRd i ≠ 0#5 := by
  unfold readsCsr
  cases instrOp i with
  | write => exact decide_eq_true_iff.trans (by simp)
  | set | clear => simp [doesRead]

theorem writesCsr_iff {i : Instr} : writesCsr i = true ↔ instrOp i = .write ∨ instrSrc i ≠ 0#5 := by
  unfold writesCsr
  cases instrOp i with
  | write => simp [doesWrite]
  | set | clear => exact decide_eq_true_iff.trans (by simp)

theorem readsCsr_eq_false_iff {i : Instr} : readsCsr i = false ↔ instrOp i = .write ∧ instrRd i = 0#5 := by
  rw [← Bool.not_eq_true, readsCsr_iff, not_or, not_not, not_not]

theorem writesCsr_eq_false_iff {i : Instr} : writesCsr i = false ↔ instrOp i ≠ .write ∧ instrSrc i = 0#5 := by
  rw [← Bool.not_eq_true, writesCsr_iff, not_or, not_not]

theorem writesCsr_of_writeForm {i : Instr} (hop : instrOp i = .write) : writesCsr i = true := writesCsr_iff.2 (.inl hop)

theorem readsCsr_of_setOrClear {i : Instr} (hop : instrOp i ≠ .write) : readsCsr i = true := readsCsr_iff.2 (.inl hop)

/-- The set and clear forms with given operands have their operation, `csr` and source field in common. -/
theorem setOrClear_of_mem {i : Instr} {rd : RegNum} {csr : CsrAddr} {src : BitVec 5}
    (hi : i ∈ [Instr.csrrs rd csr src, .csrrc rd csr src, .csrrsi rd csr src, .csrrci rd csr src]) :
    instrOp i ≠ .write ∧ instrRd i = rd ∧ instrCsr i = csr ∧ instrSrc i = src := by
  simp only [List.mem_cons, List.not_mem_nil, or_false] at hi
  rcases hi with rfl | rfl | rfl | rfl <;> exact ⟨nofun, rfl, rfl, rfl⟩

theorem touchedMask_of_setOrClear {op : CsrOp} (hop : op ≠ .write) (operand : Word xlen) :
    touchedMask op operand = operand := by
  cases op with
  | write => exact absurd rfl hop
  | set => rfl
  | clear => rfl

/-! ### An instruction that goes on, and a write that raises -/

section
variable {i : Instr} {h : Hart xlen}

/-- An instruction goes on where the CSR is accessible and, if it is written, not read-only. -/
theorem goes_of_accessible (ha : Accessible h (instrCsr i)) (hr : writesCsr i = false ∨ NotReadOnly h (instrCsr i)) :
    Goes i h (instrResult i h) :=
  goes_of_allowed (allowed_of_accessible ha hr)

theorem raises_of_readOnly (hro : csrReadOnly h.platform (instrCsr i) = true) (hw : writesCsr i = true) : Raises i h :=
  raises_of_not_allowed (by simp [accessAllowed, hro, hw])

/-- `rd` takes the old value of the CSR: an instruction that does not read has `rd` = `x0`. -/
theorem readX_instrResult_eq (i : Instr) (h : Hart xlen) (q : RegNum) : readX (instrResult i h) q =
    if q = instrRd i ∧ instrRd i ≠ 0#5 then csrPeek h.platform (instrCsr i) h.cs else readX h q := by
  rw [readX_instrResult]
  refine if_congr ⟨fun ⟨_, hq, h0⟩ => ⟨hq, hq ▸ h0⟩, fun ⟨hq, h0⟩ => ⟨readsCsr_iff.2 (.inr h0), hq, hq ▸ h0⟩⟩ rfl rfl

theorem instrResult_cs_of_writes (hw : writesCsr i = true) : (instrResult i h).cs = csrImplicit h.platform
    (csrWriteEffect h.platform (instrCsr i)
      (if readsCsr i then csrReadEffect h.platform (instrCsr i) h.cs else h.cs)
      (presentedValue (instrOp i) (csrPeek h.platform (instrCsr i) h.cs) (instrOperand h i))
      (touchedMask (instrOp i) (instrOperand h i))) [instrCsr i] (encode i) := by
  rw [instrResult_cs, hw]; rfl

/-- An instruction that does not write reads. -/
theorem instrResult_cs_of_not_writes (hw : writesCsr i = false) : (instrResult i h).cs =
    csrImplicit h.platform (csrReadEffect h.platform (instrCsr i) h.cs) [] (encode i) := by
  rw [instrResult_cs, hw, readsCsr_of_setOrClear (writesCsr_eq_false_iff.1 hw).1]; rfl

theorem instrResult_cs_writeForm (hop : instrOp i = .write) : (instrResult i h).cs = csrImplicit h.platform
    (csrWriteEffect h.platform (instrCsr i)
      (if instrRd i ≠ 0#5 then csrReadEffect h.platform (instrCsr i) h.cs else h.cs)
      (instrOperand h i) (BitVec.allOnes xlen)) [instrCsr i] (encode i) := by
  have reads : readsCsr i = true ↔ instrRd i ≠ 0#5 := by simp [readsCsr_iff, hop]
  rw [instrResult_cs_of_writes (writesCsr_of_writeForm hop), if_congr reads rfl rfl, hop]; rfl

theorem instrResult_cs_setOrClear (hop : instrOp i ≠ .write) (hs : instrSrc i ≠ 0#5) :
    (instrResult i h).cs = csrImplicit h.platform
      (csrWriteEffect h.platform (instrCsr i) (csrReadEffect h.platform (instrCsr i) h.cs)
        (presentedValue (instrOp i) (csrPeek h.platform (instrCsr i) h.cs) (instrOperand h i))
        (instrOperand h i)) [instrCsr i] (encode i) := by
  rw [instrResult_cs_of_writes (writesCsr_iff.2 (.inr hs)), readsCsr_of_setOrClear hop, touchedMask_of_setOrClear hop]
  rfl

/-! ### The full effect of a write form, and of a set or clear form -/

theorem writeForm_effect (hop : instrOp i = .write) (ha : Accessible h (instrCsr i))
    (hro : NotReadOnly h (instrCsr i)) :
    ∃ h', Goes i h h' ∧ h'.pc = h.pc + 4#xlen ∧
      (∀ q, readX h' q =
        if q = instrRd i ∧ instrRd i ≠ 0#5 then csrPeek h.platform (instrCsr i) h.cs else readX h q) ∧
      h'.cs = csrImplicit h.platform
        (csrWriteEffect h.platform (instrCsr i)
          (if instrRd i ≠ 0#5 then csrReadEffect h.platform (instrCsr i) h.cs else h.cs)
          (instrOperand h i) (BitVec.allOnes xlen)) [instrCsr i] (encode i) ∧
      (∀ a, readByte h' a = readByte h a) ∧ h'.platform = h.platform :=
  ⟨instrResult i h, goes_of_accessible ha (.inr hro), instrResult_pc i h, readX_instrResult_eq i h,
    instrResult_cs_writeForm hop, readByte_congr (instrResult_mem i h), instrResult_platform i h⟩

theorem setOrClear_effect (hop : instrOp i ≠ .write) (ha : Accessible h (instrCsr i))
    (hr : instrSrc i = 0#5 ∨ NotReadOnly h (instrCsr i)) :
    ∃ h', Goes i h h' ∧ h'.pc = h.pc + 4#xlen ∧
      (∀ q, readX h' q =
        if q = instrRd i ∧ instrRd i ≠ 0#5 then csrPeek h.platform (instrCsr i) h.cs else readX h q) ∧
      (instrSrc i = 0#5 →
        h'.cs = csrImplicit h.platform (csrReadEffect h.platform (instrCsr i) h.cs) [] (encode i)) ∧
      (instrSrc i ≠ 0#5 → h'.cs = csrImplicit h.platform
        (csrWriteEffect h.platform (instrCsr i) (csrReadEffect h.platform (instrCsr i) h.cs)
          (presentedValue (instrOp i) (csrPeek h.platform (instrCsr i) h.cs) (instrOperand h i))
          (instrOperand h i)) [instrCsr i] (encode i)) ∧
      (∀ a, readByte h' a = readByte h a) ∧ h'.platform = h.platform :=
  ⟨instrResult i h, goes_of_accessible ha (hr.imp_left fun hs => writesCsr_eq_false_iff.2 ⟨hop, hs⟩),
    instrResult_pc i h, readX_instrResult_eq i h, fun hs => instrResult_cs_of_not_writes (writesCsr_eq_false_iff.2 ⟨hop, hs⟩),
    instrResult_cs_setOrClear hop, readByte_congr (instrResult_mem i h), instrResult_platform i h⟩

/-! ### The accesses an instruction records -/

theorem instrResult_events_output (hr : readsCsr i = false) :
    (instrResult i h).events = h.events ++ [outputEvent h (instrCsr i)] := by
  simp [instrResult_events, hr, writesCsr_of_writeForm (readsCsr_eq_false_iff.1 hr).1]

theorem instrResult_events_input (hw : writesCsr i = false) :
    (instrResult i h).events = h.events ++ [inputEvent h (instrCsr i)] := by
  simp [instrResult_events, hw, readsCsr_of_setOrClear (writesCsr_eq_false_iff.1 hw).1]

theorem instrResult_events_both (hr : readsCsr i = true) (hw : writesCsr i = true) :
    (instrResult i h).events = h.events ++ [inputEvent h (instrCsr i), outputEvent h (instrCsr i)] := by
  simp [instrResult_events, hr, hw]

theorem instrResult_events_setOrClear (hop : instrOp i ≠ .write) : (instrResult i h).events = h.events ++
    (if instrSrc i = 0#5 then [inputEvent h (instrCsr i)]
      else [inputEvent h (instrCsr i), outputEvent h (instrCsr i)]) := by
  split
  · next hs => exact instrResult_events_input (writesCsr_eq_false_iff.2 ⟨hop, hs⟩)
  · next hs => exact instrResult_events_both (readsCsr_of_setOrClear hop) (writesCsr_iff.2 (.inr hs))

/-- The last access of an instruction that writes is its output. -/
theorem getLast?_instrResult_events (hw : writesCsr i = true) :
    (instrResult i h).events.getLast? = some (outputEvent h (instrCsr i)) := by
  simp [instrResult_events, hw]

/-- The first access of an instruction that reads is its input. -/
theorem getElem?_instrResult_events (hr : readsCsr i = true) :
    (instrResult i h).events[h.events.length]? = some (inputEvent h (instrCsr i)) := by
  simp [instrResult_events, hr]

/-! The rows of the table of R70: only an output, both, only an input. -/

theorem records_output (ha : Accessible h (instrCsr i)) (hro : NotReadOnly h (instrCsr i)) (hr : readsCsr i = false) :
    ∃ h', Goes i h h' ∧ h'.events = h.events ++ [outputEvent h (instrCsr i)] :=
  ⟨_, goes_of_accessible ha (.inr hro), instrResult_events_output hr⟩

theorem records_both (ha : Accessible h (instrCsr i)) (hro : NotReadOnly h (instrCsr i)) (hr : readsCsr i = true)
    (hw : writesCsr i = true) :
    ∃ h', Goes i h h' ∧ h'.events = h.events ++ [inputEvent h (instrCsr i), outputEvent h (instrCsr i)] :=
  ⟨_, goes_of_accessible ha (.inr hro), instrResult_events_both hr hw⟩

theorem records_input (ha : Accessible h (instrCsr i)) (hw : writesCsr i = false) :
    ∃ h', Goes i h h' ∧ h'.events = h.events ++ [inputEvent h (instrCsr i)] :=
  ⟨_, goes_of_accessible ha (.inl hw), instrResult_events_input hw⟩

end

/-! ### The obligations -/

/-- Settles O11: CSRRW is a write form whose operand is the initial value of `rs1`. -/
theorem csrrwSwapsCsrAndRegister : Obligations.CsrrwSwapsCsrAndRegister :=
  fun _ _ rd csr rs1 => writeForm_effect (i := .csrrw rd csr rs1) rfl

/-- Settles O12: CSRRS is a set form whose operand is the initial value of `rs1`. -/
theorem csrrsReadsAndSetsBits : Obligations.CsrrsReadsAndSetsBits :=
  fun _ _ rd csr rs1 => setOrClear_effect (i := .csrrs rd csr rs1) nofun

/-- Settles O13: CSRRC is a clear form whose operand is the initial value of `rs1`. -/
theorem csrrcReadsAndClearsBits : Obligations.CsrrcReadsAndClearsBits :=
  fun _ _ rd csr rs1 => setOrClear_effect (i := .csrrc rd csr rs1) nofun

/-- Settles O14: CSRRWI is a write form whose operand is the immediate. -/
theorem csrrwiWritesTheImmediate : Obligations.CsrrwiWritesTheImmediate :=
  fun _ _ rd csr uimm => writeForm_effect (i := .csrrwi rd csr uimm) rfl

/-- Settles O15: CSRRSI is a set form whose operand is the immediate. -/
theorem csrrsiReadsAndSetsBits : Obligations.CsrrsiReadsAndSetsBits :=
  fun _ _ rd csr uimm => setOrClear_effect (i := .csrrsi rd csr uimm) nofun

/-- Settles O16: CSRRCI is a clear form whose operand is the immediate. -/
theorem csrrciReadsAndClearsBits : Obligations.CsrrciReadsAndClearsBits :=
  fun _ _ rd csr uimm => setOrClear_effect (i := .csrrci rd csr uimm) nofun

/-- Settles O17: the write forms read for `rd` not `x0`, the set and clear forms write for a source field not zero. -/
theorem readWriteTableAsAccesses : Obligations.ReadWriteTableAsAccesses := by
  intro n h csr ha
  refine ⟨fun hro src => ⟨?csrrw0, ?csrrw, ?csrrwi0, ?csrrwi, ?csrrs, ?csrrc, ?csrrsi, ?csrrci⟩,
    fun rd => ⟨?csrr, ?csrrc0, ?csrrsi0, ?csrrci0⟩⟩
  case csrrw0 | csrrwi0 => exact records_output ha hro rfl
  case csrrw | csrrwi => exact fun rd hrd => records_both ha hro (readsCsr_iff.2 (.inr hrd)) rfl
  case csrrs | csrrc | csrrsi | csrrci => exact fun rd hs => records_both ha hro rfl (writesCsr_iff.2 (.inr hs))
  case csrr | csrrc0 | csrrsi0 | csrrci0 => exact records_input ha rfl

/-- Settles O21: a zero operand is presented like any other, and on a read-only CSR a write form is not allowed. -/
theorem writeFormsWriteZeroOperands : Obligations.WriteFormsWriteZeroOperands := by
  intro n h csr rd ha
  refine ⟨fun hro => ⟨?_, ?_, fun src => ⟨?_, ?_⟩⟩,
    fun hro src => ⟨raises_of_readOnly hro rfl, raises_of_readOnly hro rfl⟩⟩
  · exact ⟨_, goes_of_accessible ha (.inr hro), instrResult_cs_writeForm rfl⟩
  · have zero : instrOperand h (.csrrwi rd csr 0#5) = 0#n := by simp [instrOperand, immOperand]
    exact ⟨_, goes_of_accessible ha (.inr hro), zero ▸ instrResult_cs_writeForm rfl⟩
  · exact ⟨_, goes_of_accessible ha (.inr hro), getLast?_instrResult_events rfl⟩
  · exact ⟨_, goes_of_accessible ha (.inr hro), getLast?_instrResult_events rfl⟩

/-- Settles O25: the access check asks for read-only only where the instruction writes. -/
theorem readOnlyCsrRaisesOnWritesOnly : Obligations.ReadOnlyCsrRaisesOnWritesOnly := by
  intro n h csr rd src ha hro
  refine ⟨⟨raises_of_readOnly hro rfl, raises_of_readOnly hro rfl⟩, fun hs => ?_, fun i hi => ?_⟩
  · have writes : ∀ {i}, instrSrc i = src → writesCsr i = true := fun hi => writesCsr_iff.2 (.inr (hi ▸ hs))
    exact ⟨raises_of_readOnly hro (writes rfl), raises_of_readOnly hro (writes rfl),
      raises_of_readOnly hro (writes rfl), raises_of_readOnly hro (writes rfl)⟩
  · obtain ⟨hop, rfl, rfl, hs⟩ := setOrClear_of_mem hi
    exact ⟨_, goes_of_accessible ha (.inl (writesCsr_eq_false_iff.2 ⟨hop, hs⟩)), instrResult_pc i h,
      readX_instrResult_eq i h⟩

end Sys2Proof.Machine
end

section
/-! PROOFS. The statements of 42_csr_access_rules.md about side effects: which effects an access has (R73, R75, R77,
R78), which fields act (R79), what the implicit update leaves and makes (R85), and when `rs1` is read (R89). -/

namespace Sys2Proof.Machine

variable {xlen : Nat}

/-! ### The access primitives at a CSR whose description is known -/

section
variable {p : Platform xlen} {a : CsrAddr} {d : CsrDesc xlen} {k : Nat} {v : Word xlen}

theorem csrPeek_of_csrAt (hd : csrAt p a = some d) (cs : CS xlen) : csrPeek p a cs = valueIn d cs := by
  simp [csrPeek, hd]

theorem csrReadEffect_of_csrAt (hd : csrAt p a = some d) (cs : CS xlen) :
    csrReadEffect p a cs = applyEffect {} d.onRead cs := by
  simp [csrReadEffect, hd]

theorem csrWriteEffect_of_csrAt (hd : csrAt p a = some d) (cs : CS xlen) (v t : Word xlen) :
    csrWriteEffect p a cs v t = fieldEffects { value := v, touched := t } d.fields
      (applyEffect { value := v, touched := t } d.onWrite (storeIn d { value := v, touched := t } cs)) := by
  simp [csrWriteEffect, hd]

/-- A CSR that is always present and always allowed is accessible. -/
theorem accessible_of_csrAt {h : Hart xlen} (hn : 1 ≤ xlen) (hd : csrAt h.platform a = some d)
    (hp : d.present = .lit 1#xlen) (hal : d.allowed = .lit 1#xlen) : Accessible h a := by
  have one_ne_zero : 1#xlen ≠ 0#xlen := by
    intro h; have := congrArg BitVec.toNat h; simp at this; omega
  simp [Accessible, csrExists, csrPrivOk, hd, hp, hal, evalExpr, one_ne_zero]

theorem notReadOnly_of_csrAt {h : Hart xlen} (hd : csrAt h.platform a = some d) (hro : d.readOnly = false) :
    NotReadOnly h a := by
  simp [NotReadOnly, csrReadOnly, hd, hro]

/-! ### Field effects: those of the touched fields, in list order (42_csr_access_rules.md R79) -/

theorem fieldEffects_eq_foldl (inp : Inputs xlen) (fs : List (FieldEffect xlen)) (cs : CS xlen) :
    fieldEffects inp fs cs =
      (fs.filter fun f => fieldTouched inp.touched f.hi f.lo).foldl (fun cs f => applyEffect inp f.effect cs) cs :=
  List.foldl_filter.symm

theorem fieldTouched_zero (hi lo : Nat) : fieldTouched 0#xlen hi lo = false := by
  simp [fieldTouched]

/-- A mask of all zeros touches no field. -/
theorem fieldEffects_of_zero_mask (inp : Inputs xlen) (fs : List (FieldEffect xlen)) (cs : CS xlen)
    (ht : inp.touched = 0#xlen) : fieldEffects inp fs cs = cs := by
  simp [fieldEffects_eq_foldl, ht, fieldTouched_zero]

/-- A field is touched where the mask has a bit set among its positions. -/
theorem fieldTouched_eq_hasBitIn (t : Word xlen) {hi lo : Nat} (hle : lo ≤ hi) :
    fieldTouched t hi lo = hasBitIn t hi lo := by
  rw [Bool.eq_iff_iff, ← not_iff_not]
  simp only [fieldTouched, hasBitIn, decide_eq_true_eq, not_not, List.any_eq_true, List.mem_range, Bool.and_eq_true,
    not_exists, not_and, Bool.not_eq_true]
  constructor
  · intro hz b hb hlo
    have bit := congrArg (BitVec.getLsbD · (b - lo)) hz
    simpa [show b - lo ≤ hi - lo by omega, show b - lo < hi - lo + 1 by omega,
      show lo + (b - lo) = b by omega] using bit
  · intro hz
    refine BitVec.eq_of_getLsbD_eq fun j hj => ?_
    simp [hz (lo + j) (by omega) (by omega)]

theorem hasBitIn_allOnes {hi lo : Nat} (hle : lo ≤ hi) (hlt : hi < xlen) :
    hasBitIn (BitVec.allOnes xlen) hi lo = true := by
  simp only [hasBitIn, List.any_eq_true, List.mem_range]
  exact ⟨hi, by omega, by simp [hle, hlt]⟩

/-- The field effects leave alone every cell that the touched fields spare. -/
theorem fieldEffects_cell_of_touched_spare (inp : Inputs xlen) {fs : List (FieldEffect xlen)}
    (hs : ∀ f ∈ fs, fieldTouched inp.touched f.hi f.lo = true → sparesCell k f.effect = true) (cs : CS xlen) :
    (fieldEffects inp fs cs).cell k = cs.cell k := by
  induction fs generalizing cs with
  | nil => rfl
  | cons f fs ih =>
    rw [fieldEffects_cons, ih fun g hg => hs g (List.mem_cons_of_mem _ hg)]
    split
    · next ht => exact applyEffect_spares inp (hs f List.mem_cons_self ht) cs
    · rfl

/-- A touched field leaves the mark that it alone makes. -/
theorem fieldEffects_marks (inp : Inputs xlen) {fs : List (FieldEffect xlen)} {f : FieldEffect xlen} (hf : f ∈ fs)
    (ht : fieldTouched inp.touched f.hi f.lo = true) (hm : marksCell k v f.effect = true)
    (hs : ∀ g ∈ fs, g ≠ f → sparesCell k g.effect = true) (cs : CS xlen) : (fieldEffects inp fs cs).cell k = v := by
  induction fs generalizing cs with
  | nil => cases hf
  | cons g fs ih =>
    have hs' : ∀ g ∈ fs, g ≠ f → sparesCell k g.effect = true := fun g hg => hs g (List.mem_cons_of_mem _ hg)
    rw [fieldEffects_cons]
    by_cases hmem : f ∈ fs
    · exact ih hmem hs' _
    · obtain rfl : f = g := (List.mem_cons.1 hf).resolve_right hmem
      rw [if_pos ht, fieldEffects_cell_of_touched_spare inp fun g hg _ => hs' g hg fun hgf => hmem (hgf ▸ hg)]
      exact applyEffect_marks inp hm cs

/-! ### What a write leaves alone and what it marks -/

theorem storeIn_cell_ne (inp : Inputs xlen) (hk : d.cell ≠ k) (cs : CS xlen) : (storeIn d inp cs).cell k = cs.cell k :=
  cell_setCell_ne _ _ hk.symm

theorem csrReadEffect_spares (hd : csrAt p a = some d) (hs : sparesCell k d.onRead = true) (cs : CS xlen) :
    (csrReadEffect p a cs).cell k = cs.cell k := by
  rw [csrReadEffect_of_csrAt hd, applyEffect_spares {} hs]

theorem csrReadEffect_marks (hd : csrAt p a = some d) (hm : marksCell k v d.onRead = true) (cs : CS xlen) :
    (csrReadEffect p a cs).cell k = v := by
  rw [csrReadEffect_of_csrAt hd, applyEffect_marks {} hm]

/-- A write leaves alone every cell but the CSR's own that its whole-register effects and the touched fields spare. -/
theorem csrWriteEffect_spares (hd : csrAt p a = some d) (hk : d.cell ≠ k) (hw : sparesCell k d.onWrite = true)
    (cs : CS xlen) (v t : Word xlen)
    (hf : ∀ f ∈ d.fields, fieldTouched t f.hi f.lo = true → sparesCell k f.effect = true) :
    (csrWriteEffect p a cs v t).cell k = cs.cell k := by
  rw [csrWriteEffect_of_csrAt hd, fieldEffects_cell_of_touched_spare _ hf, applyEffect_spares _ hw,
    storeIn_cell_ne _ hk]

/-- The whole-register effects leave the mark that they alone make, under every mask. -/
theorem csrWriteEffect_marks (hd : csrAt p a = some d) (hm : marksCell k v d.onWrite = true)
    (hf : ∀ f ∈ d.fields, sparesCell k f.effect = true) (cs : CS xlen) (w t : Word xlen) :
    (csrWriteEffect p a cs w t).cell k = v := by
  rw [csrWriteEffect_of_csrAt hd, fieldEffects_cell_of_touched_spare _ fun f hf' _ => hf f hf', applyEffect_marks _ hm]

/-- A field whose effects alone assign the cell leaves its mark exactly where the mask touches it. -/
theorem csrWriteEffect_field {f : FieldEffect xlen} (hd : csrAt p a = some d) (hf : f ∈ d.fields)
    (hm : marksCell k v f.effect = true) (hk : d.cell ≠ k) (hw : sparesCell k d.onWrite = true)
    (hothers : ∀ g ∈ d.fields, g ≠ f → sparesCell k g.effect = true) (cs : CS xlen) (w t : Word xlen) :
    (csrWriteEffect p a cs w t).cell k = if fieldTouched t f.hi f.lo then v else cs.cell k := by
  split
  · next ht => rw [csrWriteEffect_of_csrAt hd, fieldEffects_marks _ hf ht hm hothers]
  · next ht => exact csrWriteEffect_spares hd hk hw cs w t fun g hg htg => hothers g hg fun hgf => ht (hgf ▸ htg)

/-- Without touched bits a write stores and performs the whole-register effects alone. -/
theorem csrWriteEffect_zero_mask (hd : csrAt p a = some d) (cs : CS xlen) (v : Word xlen) :
    csrWriteEffect p a cs v 0#xlen = applyEffect { value := v } d.onWrite (storeIn d { value := v } cs) := by
  rw [csrWriteEffect_of_csrAt hd]
  exact fieldEffects_of_zero_mask _ _ _ rfl

/-- A plain CSR of full width holds what is written to it (10_state.md R20). -/
theorem csrPeek_csrWriteEffect_plain {cell : Nat} (hd : csrAt p a = some (plainCsr a cell xlen (BitVec.allOnes xlen)))
    (cs : CS xlen) (v t : Word xlen) : csrPeek p a (csrWriteEffect p a cs v t) = v := by
  have ones : lowOnes xlen xlen = BitVec.allOnes xlen := by
    ext i hi; rw [← BitVec.getLsbD_eq_getElem, getLsbD_lowOnes]; simp [hi]
  rw [csrPeek_of_csrAt hd, csrWriteEffect_of_csrAt hd]
  simp [valueIn, plainCsr, evalExpr, storeIn, writableIn, ones]

end

/-! ### The cells after an instruction that the implicit update spares -/

section
variable {i : Instr} {h : Hart xlen} {d : CsrDesc xlen} {k : Nat} {v : Word xlen}

/-- The CSR file before the write: the read side effects have happened where the instruction reads. -/
def readBase (i : Instr) (h : Hart xlen) : CS xlen :=
  if readsCsr i then csrReadEffect h.platform (instrCsr i) h.cs else h.cs

theorem readBase_of_not_reads (hr : readsCsr i = false) : readBase i h = h.cs := by simp [readBase, hr]

theorem readBase_of_reads (hr : readsCsr i = true) : readBase i h = csrReadEffect h.platform (instrCsr i) h.cs := by
  simp [readBase, hr]

theorem readBase_spares (hd : csrAt h.platform (instrCsr i) = some d) (hs : sparesCell k d.onRead = true) :
    (readBase i h).cell k = h.cs.cell k := by
  unfold readBase
  split
  · exact csrReadEffect_spares hd hs h.cs
  · rfl

theorem instrResult_cell_of_writes (hi : sparesCell k h.platform.implicits = true) (hw : writesCsr i = true) :
    (instrResult i h).cs.cell k = (csrWriteEffect h.platform (instrCsr i) (readBase i h)
      (presentedValue (instrOp i) (csrPeek h.platform (instrCsr i) h.cs) (instrOperand h i))
      (touchedMask (instrOp i) (instrOperand h i))).cell k := by
  rw [instrResult_cs_of_writes hw, csrImplicit_spares _ _ _ _ hi]; rfl

theorem instrResult_cell_of_not_writes (hi : sparesCell k h.platform.implicits = true) (hw : writesCsr i = false) :
    (instrResult i h).cs.cell k = (readBase i h).cell k := by
  rw [instrResult_cs_of_not_writes hw, csrImplicit_spares _ _ _ _ hi,
    readBase_of_reads (readsCsr_of_setOrClear (writesCsr_eq_false_iff.1 hw).1)]

/-- A cell that nothing of the write assigns is what the read left in it, whether the instruction writes or not. -/
theorem instrResult_cell_of_write_spares (hd : csrAt h.platform (instrCsr i) = some d)
    (hi : sparesCell k h.platform.implicits = true) (hk : d.cell ≠ k) (hw : sparesCell k d.onWrite = true)
    (hf : ∀ f ∈ d.fields, sparesCell k f.effect = true) :
    (instrResult i h).cs.cell k = (readBase i h).cell k := by
  cases hwr : writesCsr i with
  | false => exact instrResult_cell_of_not_writes hi hwr
  | true => rw [instrResult_cell_of_writes hi hwr, csrWriteEffect_spares hd hk hw _ _ _ fun f hf' _ => hf f hf']

end

/-! ### Other read side effects on the platform -/

/-- The platform with `effect` as the read side effects of the CSR at `a`. -/
def withReadEffect (p : Platform xlen) (a : CsrAddr) (effect : List (Assign xlen)) : Platform xlen :=
  changeCsr p a fun d => { d with onRead := effect }

section
variable (p : Platform xlen) (a b : CsrAddr) (effect : List (Assign xlen)) (cs : CS xlen)

/-- At every address the entry is the same, or the same but for its read side effects. -/
theorem csrAt_withReadEffect : csrAt (withReadEffect p a effect) b = csrAt p b ∨
    ∃ d, csrAt p b = some d ∧ csrAt (withReadEffect p a effect) b = some { d with onRead := effect } := by
  have same_addr : ((fun d : CsrDesc xlen => decide (d.addr = b)) ∘
      fun d => if d.addr = a then { d with onRead := effect } else d) = fun d => decide (d.addr = b) := by
    funext d; simp only [Function.comp]; split <;> rfl
  have map : csrAt (withReadEffect p a effect) b =
      (csrAt p b).map fun d => if d.addr = a then { d with onRead := effect } else d := by
    simp only [csrAt, withReadEffect, changeCsr, List.find?_map, same_addr]
  rw [map]
  cases csrAt p b with
  | none => exact .inl rfl
  | some d =>
    by_cases hd : d.addr = a
    · exact .inr ⟨d, rfl, by simp [hd]⟩
    · exact .inl (by simp [hd])

theorem csrExists_withReadEffect : csrExists (withReadEffect p a effect) b cs = csrExists p b cs := by
  rcases csrAt_withReadEffect p a b effect with h | ⟨d, h, h'⟩
  · simp [csrExists, h]
  · simp [csrExists, h, h']

theorem csrPrivOk_withReadEffect : csrPrivOk (withReadEffect p a effect) b cs = csrPrivOk p b cs := by
  rcases csrAt_withReadEffect p a b effect with h | ⟨d, h, h'⟩
  · simp [csrPrivOk, h]
  · simp [csrPrivOk, h, h']

theorem csrReadOnly_withReadEffect : csrReadOnly (withReadEffect p a effect) b = csrReadOnly p b := by
  rcases csrAt_withReadEffect p a b effect with h | ⟨d, h, h'⟩
  · simp [csrReadOnly, h]
  · simp [csrReadOnly, h, h']

theorem csrWriteEffect_withReadEffect (v t : Word xlen) :
    csrWriteEffect (withReadEffect p a effect) b cs v t = csrWriteEffect p b cs v t := by
  rcases csrAt_withReadEffect p a b effect with h | ⟨d, h, h'⟩
  · simp [csrWriteEffect, h]
  · rw [csrWriteEffect_of_csrAt h, csrWriteEffect_of_csrAt h']; rfl

theorem backs_withReadEffect (w : List CsrAddr) (k : Nat) : backs (withReadEffect p a effect) w k = backs p w k := by
  unfold backs
  congr 1
  funext b
  rcases csrAt_withReadEffect p a b effect with h | ⟨d, h, h'⟩
  · rw [h]
  · rw [h, h']

theorem csrImplicit_withReadEffect (w : List CsrAddr) (info : InstrWord) :
    csrImplicit (withReadEffect p a effect) cs w info = csrImplicit p cs w info := by
  simp only [csrImplicit, backs_withReadEffect]; rfl

end

section
variable {i : Instr} {h : Hart xlen}

/-- A write form with `rd` = `x0` writes, and nothing else. -/
theorem instrResult_of_not_reads (hr : readsCsr i = false) : instrResult i h = advancePc (implicitUpdate
    (csrWrite h (instrCsr i) (instrOperand h i) (BitVec.allOnes xlen)) [instrCsr i] (encode i)) := by
  obtain ⟨hop, hrd⟩ := readsCsr_eq_false_iff.1 hr
  simp [instrResult, accessResult, hop, hrd, doesRead, doesWrite, readPhase, writePhase, resultPhase, writtenSet,
    presentedValue, touchedMask]

/-- An instruction that does not read does the same with any other read side effects in their place. -/
theorem instrResult_withReadEffect (hr : readsCsr i = false) (a : CsrAddr) (effect : List (Assign xlen)) :
    instrResult i (onPlatform h (withReadEffect h.platform a effect)) =
      onPlatform (instrResult i h) (withReadEffect h.platform a effect) := by
  rw [instrResult_of_not_reads hr, instrResult_of_not_reads hr, instrOperand_onPlatform]
  simp only [advancePc, implicitUpdate, csrWrite, recordAccess, onPlatform, csrImplicit_withReadEffect,
    csrWriteEffect_withReadEffect]
  rfl

theorem accessAllowed_withReadEffect (a b : CsrAddr) (effect : List (Assign xlen)) (writes : Bool) :
    accessAllowed (onPlatform h (withReadEffect h.platform a effect)) b writes = accessAllowed h b writes := by
  simp only [accessAllowed, onPlatform, csrExists_withReadEffect, csrPrivOk_withReadEffect, csrReadOnly_withReadEffect]

/-- The no-read case: the outcome is the same with any other read side effects, and one output is recorded. -/
theorem goes_withReadEffect (hr : readsCsr i = false) (ha : Accessible h (instrCsr i))
    (hro : NotReadOnly h (instrCsr i)) (a : CsrAddr) (effect : List (Assign xlen)) :
    ∃ h', Goes i h h' ∧
      Goes i (onPlatform h (withReadEffect h.platform a effect)) (onPlatform h' (withReadEffect h.platform a effect)) ∧
      h'.events = h.events ++ [outputEvent h (instrCsr i)] := by
  have allowed : accessAllowed h (instrCsr i) (writesCsr i) = true := allowed_of_accessible ha (.inr hro)
  exact ⟨instrResult i h, goes_of_allowed allowed,
    instrResult_withReadEffect hr a effect ▸ goes_of_allowed ((accessAllowed_withReadEffect ..).trans allowed),
    instrResult_events_output hr⟩

end

/-! ### The fields of a well-formed platform -/

section
variable {d : CsrDesc xlen}

theorem fields_of_wellFormed {p : Platform xlen} {a : CsrAddr} (hw : p.wellFormed = true) (hd : csrAt p a = some d) :
    ∀ f ∈ d.fields, f.lo ≤ f.hi ∧ f.hi < xlen := by
  simp only [Platform.wellFormed, Bool.and_eq_true, List.all_eq_true] at hw
  obtain ⟨-, hcsrs⟩ := hw
  obtain ⟨⟨-, hfields⟩, -⟩ := hcsrs d (csrAt_mem hd)
  simpa [CsrDesc.fieldsOk] using hfields

/-- The mask of a write form touches every field, that of a set or clear form those in which its operand has a bit. -/
theorem fieldTouched_touchedMask (op : CsrOp) (operand : Word xlen) {hi lo : Nat} (hle : lo ≤ hi) (hlt : hi < xlen) :
    fieldTouched (touchedMask op operand) hi lo = if op = .write then true else hasBitIn operand hi lo := by
  rw [fieldTouched_eq_hasBitIn _ hle]
  cases op with
  | write => exact hasBitIn_allOnes hle hlt
  | set | clear => rfl

theorem filter_fieldTouched (op : CsrOp) (operand : Word xlen) (hf : ∀ f ∈ d.fields, f.lo ≤ f.hi ∧ f.hi < xlen) :
    (d.fields.filter fun f => fieldTouched (touchedMask op operand) f.hi f.lo) =
      if op = .write then d.fields else d.fields.filter fun f => hasBitIn operand f.hi f.lo := by
  rw [List.filter_congr fun f hmem => fieldTouched_touchedMask op operand (hf f hmem).1 (hf f hmem).2]
  split <;> simp

end

/-! ### The light bulb (42_csr_access_rules.md R78) -/

section
variable {p : Platform xlen} {a : CsrAddr}

theorem and_one_eq_zero_iff (hn : 1 ≤ xlen) (v : Word xlen) : v &&& 1#xlen = 0#xlen ↔ v.getLsbD 0 = false := by
  rw [BitVec.and_one_eq_setWidth_ofBool_getLsbD]
  cases v.getLsbD 0 with
  | false => simp
  | true =>
    refine iff_of_false (fun hz => ?_) nofun
    simpa [show 0 < xlen by omega] using congrArg (BitVec.getLsbD · 0) hz

theorem csrReadEffect_bulb (hd : csrAt p a = some (bulbCsr xlen)) (cs : CS xlen) :
    (csrReadEffect p a cs).cell cellLit = 1#xlen :=
  csrReadEffect_marks hd (by simp [marksCell, sparesCell, bulbCsr]) cs

theorem csrWriteEffect_bulb (hn : 1 ≤ xlen) (hd : csrAt p a = some (bulbCsr xlen)) (cs : CS xlen) (v t : Word xlen) :
    (csrWriteEffect p a cs v t).cell cellLit = if v.getLsbD 0 then 0#xlen else cs.cell cellLit := by
  have stored : (storeIn (bulbCsr xlen) { value := v, touched := t } cs).cell cellLit = cs.cell cellLit :=
    storeIn_cell_ne _ (show cellBval ≠ cellLit by decide) cs
  rw [csrWriteEffect_of_csrAt hd, ← stored]
  simp only [bulbCsr, fieldEffects_nil, applyEffect_cons, applyEffect_nil, cell_setCell_self, evalExpr,
    and_one_eq_zero_iff hn]
  cases v.getLsbD 0 <;> rfl

end

/-! ### The implicit update (42_csr_access_rules.md R85) -/

theorem applyEffect_append (inp : Inputs xlen) (e e' : List (Assign xlen)) (cs : CS xlen) :
    applyEffect inp (e ++ e') cs = applyEffect inp e' (applyEffect inp e cs) := List.foldl_append

theorem sparesCell_filter {k : Nat} {e : List (Assign xlen)} (hs : sparesCell k e = true) (keep : Assign xlen → Bool) :
    sparesCell k (e.filter keep) = true := by
  simp only [sparesCell, List.all_eq_true] at hs ⊢
  exact fun a ha => hs a (List.mem_filter.1 ha).1

/-- The one assignment of an effect to a cell, looking at no other cell, gives it its expression's value. -/
theorem applyEffect_cell_of_only {inp : Inputs xlen} {before after : List (Assign xlen)} {act : Assign xlen}
    (hb : sparesCell act.cell before = true) (ha : sparesCell act.cell after = true)
    (hm : ∀ j, mentionsCell j act.expr = true → j = act.cell) (cs : CS xlen) :
    (applyEffect inp (before ++ act :: after) cs).cell act.cell = evalExpr inp cs act.expr := by
  rw [applyEffect_append, applyEffect_cons, applyEffect_spares inp ha, cell_setCell_self]
  exact evalExpr_congr inp (applyEffect_moment ..) act.expr fun j hj => hm j hj ▸ applyEffect_spares inp hb cs

theorem backs_eq_false {p : Platform xlen} {w : List CsrAddr} {k : Nat}
    (hw : ∀ a ∈ w, ∀ d, csrAt p a = some d → d.cell ≠ k ∧ mentionsCell k d.shown = false) : backs p w k = false := by
  simp only [backs, List.any_eq_false]
  intro a ha
  cases hd : csrAt p a with
  | none => simp
  | some d => simpa using hw a ha d hd

/-! ### The obligations -/

/-- Settles O20: `rs1` not `x0` decides that the CSR is written; the zero mask then touches no field. -/
theorem zeroInARegisterStillWrites : Obligations.ZeroInARegisterStillWrites := by
  intro n h csr d rd rs1 hd ha hs hzero
  have set_cs : (instrResult (.csrrs rd csr rs1) h).cs = _ := instrResult_cs_setOrClear nofun hs
  have clear_cs : (instrResult (.csrrc rd csr rs1) h).cs = _ := instrResult_cs_setOrClear nofun hs
  simp only [instrCsr, instrOperand, instrOp, presentedValue, hzero, csrWriteEffect_zero_mask hd, BitVec.or_zero,
    BitVec.not_zero, BitVec.and_allOnes] at set_cs clear_cs
  refine ⟨fun hro => ⟨?_, ?_, fun uimm => ⟨?_, ?_⟩⟩, fun hro => ⟨?_, ?_⟩, ?_, ?_⟩
  · exact ⟨_, goes_of_accessible ha (.inr hro), instrResult_events_both rfl (writesCsr_iff.2 (.inr hs)), set_cs⟩
  · exact ⟨_, goes_of_accessible ha (.inr hro), instrResult_events_both rfl (writesCsr_iff.2 (.inr hs)), clear_cs⟩
  · exact ⟨_, goes_of_accessible ha (.inr hro), instrResult_events_setOrClear nofun⟩
  · exact ⟨_, goes_of_accessible ha (.inr hro), instrResult_events_setOrClear nofun⟩
  · exact raises_of_readOnly hro (writesCsr_iff.2 (.inr hs))
  · exact raises_of_readOnly hro (writesCsr_iff.2 (.inr hs))
  · exact records_input ha rfl
  · exact records_input ha rfl

/-- Settles O22: set and clear forms always read; a write form with `rd` = `x0` is a write alone, which looks at no read
side effect. -/
theorem readSideEffectsHappenOnEveryReadAndOnlyThen : Obligations.ReadSideEffectsHappenOnEveryReadAndOnlyThen := by
  intro n h rd csr src effect ha
  refine ⟨fun hr i hi => ?_, fun hro i hi => ?_⟩
  · obtain ⟨hop, -, rfl, rfl⟩ := setOrClear_of_mem hi
    exact ⟨_, goes_of_accessible ha (hr.imp_left fun hs => writesCsr_eq_false_iff.2 ⟨hop, hs⟩),
      getElem?_instrResult_events (readsCsr_of_setOrClear hop),
      fun hs => instrResult_cs_of_not_writes (writesCsr_eq_false_iff.2 ⟨hop, hs⟩), instrResult_cs_setOrClear hop⟩
  · simp only [List.mem_cons, List.not_mem_nil, or_false] at hi
    rcases hi with rfl | rfl
    · exact goes_withReadEffect (i := .csrrw 0#5 csr src) rfl ha hro csr effect
    · exact goes_withReadEffect (i := .csrrwi 0#5 csr src) rfl ha hro csr effect

/-- Settles O24: the field effects of a write are those of the fields that the mask touches. -/
theorem fieldSideEffectsOfTheTouchedFields : Obligations.FieldSideEffectsOfTheTouchedFields := by
  rintro n h csr d i hwf hd rfl hw ha hro
  refine ⟨instrResult i h, goes_of_accessible ha (.inr hro), ?_⟩
  rw [instrResult_cs_of_writes hw, csrReadEffect_of_csrAt hd, csrWriteEffect_of_csrAt hd, fieldEffects_eq_foldl,
    filter_fieldTouched _ _ (fields_of_wellFormed hwf hd)]

/-- Settles O36: the assignments that the update makes are those to cells that back no CSR in the set. -/
theorem implicitUpdateSkipsTheWrittenCsrs : Obligations.ImplicitUpdateSkipsTheWrittenCsrs := by
  intro n p cs w info
  refine ⟨fun a b d e haw hd he hshown => ?_, ?_, fun before after act himp hb ha hm hback => ?_⟩
  · rw [csrPeek_of_csrAt he, csrPeek_of_csrAt he]
    refine valueIn_congr (csrImplicit_moment ..) fun k hk => csrImplicit_cell_of_backs p cs info ?_
    exact List.any_eq_true.2 ⟨a, haw, by simp [hd, ← hshown, hk]⟩
  · simp [csrImplicit, backs]
  · have kept : backs p w act.cell = false := backs_eq_false hback
    rw [csrImplicit, himp, List.filter_append, List.filter_cons_of_pos (by simp [kept])]
    exact applyEffect_cell_of_only (sparesCell_filter hb _) (sparesCell_filter ha _) hm cs

/-- Settles O38: CSRRS reads alone, CSRRW with `rd` = `x0` writes alone, any other CSRRW reads and then writes. -/
theorem bulbReadLightsAndOddWriteTurnsOff : Obligations.BulbReadLightsAndOddWriteTurnsOff := by
  intro n h rd rs1 hn hd hi
  have ha : Accessible h 0x7C0#12 := accessible_of_csrAt hn hd rfl rfl
  have hro : NotReadOnly h 0x7C0#12 := notReadOnly_of_csrAt hd rfl
  have written : ∀ rd, (instrResult (.csrrw rd 0x7C0#12 rs1) h).cs.cell cellLit =
      if (readX h rs1).getLsbD 0 then 0#n else (readBase (.csrrw rd 0x7C0#12 rs1) h).cell cellLit := fun rd =>
    (instrResult_cell_of_writes hi rfl).trans (csrWriteEffect_bulb hn hd ..)
  refine ⟨⟨_, goes_of_accessible ha (.inr hro), ?_⟩, ⟨_, goes_of_accessible ha (.inr hro), written 0#5⟩,
    fun hrd => ⟨_, goes_of_accessible ha (.inr hro), ?_⟩⟩
  · rw [instrResult_cell_of_not_writes hi rfl]
    exact csrReadEffect_bulb hd h.cs
  · have reads : readsCsr (.csrrw rd 0x7C0#12 rs1) = true := readsCsr_iff.2 (.inr hrd)
    rw [written rd, readBase_of_reads reads]
    exact congrArg _ (csrReadEffect_bulb hd h.cs)

/-- Settles O39: the operand is bound before `rd` is written, so `rd` takes the old value and the CSR the
presented one. -/
theorem sourceRegisterIsReadBeforeTheDestinationIsWritten :
    Obligations.SourceRegisterIsReadBeforeTheDestinationIsWritten := by
  intro n h csr cell rd rs1 hn hd hrd hs
  have swaps : ∀ i, instrCsr i = csr → instrRd i = rd → writesCsr i = true →
      ∃ h', Goes i h h' ∧ readX h' rd = csrPeek h.platform csr h.cs ∧ csrPeek h'.platform csr h'.cs =
        presentedValue (instrOp i) (csrPeek h.platform csr h.cs) (instrOperand h i) := by
    rintro i rfl rfl hw
    exact ⟨_, goes_of_accessible (accessible_of_csrAt hn hd rfl rfl) (.inr (notReadOnly_of_csrAt hd rfl)),
      readX_instrResult_rd h (readsCsr_iff.2 (.inr hrd)) hrd,
      (csrPeek_instrResult_of_writes h hw).trans (csrPeek_csrWriteEffect_plain hd ..)⟩
  exact ⟨swaps (.csrrw rd csr rs1) rfl rfl rfl, swaps (.csrrs rd csr rs1) rfl rfl (writesCsr_iff.2 (.inr hs)),
    swaps (.csrrc rd csr rs1) rfl rfl (writesCsr_iff.2 (.inr hs))⟩

/-- Settles O50: beside the implicit update a cell is assigned by the read, where there is one, and by the write, where
there is one. -/
theorem sideEffectsOccurExactlyWhenTheAccessDoes : Obligations.SideEffectsOccurExactlyWhenTheAccessDoes := by
  intro n h i d k v noRead noWrite hd ha hr hi
  refine ⟨instrResult i h, goes_of_accessible ha (hr.imp_left writesCsr_eq_false_iff.2),
    fun hk hw hf => ?_, fun hon => ?_⟩
  · rw [instrResult_cell_of_write_spares hd hi hk hw hf]
    refine ⟨fun hno => ?_, fun hno hm => ?_⟩
    · rw [readBase_of_not_reads (readsCsr_eq_false_iff.2 hno)]
    · have reads : readsCsr i = true := by rwa [← Bool.not_eq_false, readsCsr_eq_false_iff]
      rw [readBase_of_reads reads, csrReadEffect_marks hd hm]
  · refine ⟨fun hno => ?_, fun hno hk hm hf => ?_⟩
    · rw [instrResult_cell_of_not_writes hi (writesCsr_eq_false_iff.2 hno), readBase_spares hd hon]
    · have writes : writesCsr i = true := by rwa [← Bool.not_eq_false, writesCsr_eq_false_iff]
      rw [instrResult_cell_of_writes hi writes, csrWriteEffect_marks hd hm hf]

/-- Settles O51: a write form's mask touches every field, a set or clear form's those in which its operand has a bit. -/
theorem aFieldActsExactlyWhenItIsTouched : Obligations.AFieldActsExactlyWhenItIsTouched := by
  intro n h i d hd ha hro hw
  refine ⟨instrResult i h, goes_of_accessible ha (.inr hro), fun k v hk hon hi => ?_⟩
  rw [instrResult_cell_of_writes hi (writesCsr_iff.2 hw)]
  refine ⟨fun f hf hle hlt hm hw hothers => ?_, fun hm hf => csrWriteEffect_marks hd hm hf _ _ _⟩
  rw [csrWriteEffect_field hd hf hm hk hw hothers, fieldTouched_touchedMask _ _ hle hlt, readBase_spares hd hon]
  exact ⟨fun hop => by simp [hop], fun hop => by simp [hop]⟩

end Sys2Proof.Machine
end

section
/-! PROOFS. The statements of 30_encoding.md: decoding undoes encoding and encoding decoding, the mask and match values
of the table, and the words written out from it. -/

namespace Sys2Proof.Machine

/-! ### The fields of a word in the one format (30_encoding.md R51 to R55) -/

section
variable (csr : CsrAddr) (src : BitVec 5) (funct3 : BitVec 3) (rd : RegNum)

@[simp] theorem opcodeField_iTypeWord : opcodeField (iTypeWord csr src funct3 rd) = systemOpcode :=
  BitVec.extractLsb'_append_eq_right

@[simp] theorem rdField_iTypeWord : rdField (iTypeWord csr src funct3 rd) = rd := by
  rw [rdField, iTypeWord, BitVec.extractLsb'_append_eq_of_le (by decide)]
  exact BitVec.extractLsb'_append_eq_right

@[simp] theorem funct3Field_iTypeWord : funct3Field (iTypeWord csr src funct3 rd) = funct3 := by
  rw [funct3Field, iTypeWord, BitVec.extractLsb'_append_eq_of_le (by decide),
    BitVec.extractLsb'_append_eq_of_le (by decide)]
  exact BitVec.extractLsb'_append_eq_right

@[simp] theorem srcField_iTypeWord : srcField (iTypeWord csr src funct3 rd) = src := by
  rw [srcField, iTypeWord, BitVec.extractLsb'_append_eq_of_le (by decide),
    BitVec.extractLsb'_append_eq_of_le (by decide), BitVec.extractLsb'_append_eq_of_le (by decide)]
  exact BitVec.extractLsb'_append_eq_right

@[simp] theorem csrField_iTypeWord : csrField (iTypeWord csr src funct3 rd) = csr := by
  rw [csrField, iTypeWord, BitVec.extractLsb'_append_eq_of_le (by decide),
    BitVec.extractLsb'_append_eq_of_le (by decide), BitVec.extractLsb'_append_eq_of_le (by decide)]
  exact BitVec.extractLsb'_append_eq_left

/-- The one format as shifted fields, as 30_encoding.md R64 writes it. -/
theorem iTypeWord_eq_shifts : iTypeWord csr src funct3 rd =
    csr.setWidth 32 <<< 20 ||| src.setWidth 32 <<< 15 ||| funct3.setWidth 32 <<< 12 ||| rd.setWidth 32 <<< 7 |||
      0x73#32 := by
  rw [← BitVec.setWidth_eq (iTypeWord csr src funct3 rd), iTypeWord,
    BitVec.setWidth_append_eq_shiftLeft_setWidth_or,
    BitVec.setWidth_append_append_append_eq_shiftLeft_setWidth_or]
  simp only [BitVec.shiftLeft_or_distrib, ← BitVec.shiftLeft_add]
  rfl
end

theorem fields_append (w : InstrWord) :
    csrField w ++ srcField w ++ funct3Field w ++ rdField w ++ opcodeField w = w := by
  simp (disch := decide) only [csrField, srcField, funct3Field, rdField, opcodeField,
    BitVec.extractLsb'_append_extractLsb'_eq_extractLsb']
  exact BitVec.extractLsb'_eq_self

/-- A word under the SYSTEM opcode is its fields in the one format. -/
theorem iTypeWord_fields {w : InstrWord} (hop : opcodeField w = systemOpcode) :
    iTypeWord (csrField w) (srcField w) (funct3Field w) (rdField w) = w := by
  rw [iTypeWord, ← hop, fields_append]

theorem wordOfBytes_extracts (w : InstrWord) :
    wordOfBytes (w.extractLsb' 0 8) (w.extractLsb' 8 8) (w.extractLsb' 16 8) (w.extractLsb' 24 8) = w := by
  simp (disch := decide) only [wordOfBytes, BitVec.extractLsb'_append_extractLsb'_eq_extractLsb']
  exact BitVec.extractLsb'_eq_self

/-! ### Decoding and encoding undo each other -/

theorem decodeWord_encode (i : Instr) : decodeWord (encode i) = .ok i := by
  cases i <;> simp [encode, decodeWord]

theorem encode_of_decodeWord {w : InstrWord} {i : Instr} (hi : decodeWord w = .ok i) : encode i = w := by
  unfold decodeWord at hi
  by_cases hop : opcodeField w = systemOpcode
  · rw [if_neg (not_not.2 hop)] at hi
    have eta := iTypeWord_fields hop
    split_ifs at hi with h1 h2 h3 h5 h6 h7 <;> cases hi
    · rwa [h1] at eta
    · rwa [h2] at eta
    · rwa [h3] at eta
    · rwa [h5] at eta
    · rwa [h6] at eta
    · rwa [h7] at eta
  · rw [if_pos hop] at hi
    cases hi

/-- Decoding the bytes of a word is decoding the word; the bytes that follow stay. -/
theorem decode_bytesOfWord_append {w : InstrWord} {i : Instr} (hi : decodeWord w = .ok i) (rest : List Byte) :
    decode (bytesOfWord w ++ rest) = .ok (i, rest) := by
  simp [bytesOfWord, decode, wordOfBytes_extracts, hi]

/-! ### The mask and the match values (30_encoding.md R59) -/

/-- The masked word of an instruction is the match value of its row. -/
theorem encode_masked (i : Instr) : encode i &&& rowMask = rowMatch i := by
  cases i with
  | csrrw rd csr rs1 => exact Laws.EncodesItsRow.csrrw rd csr rs1
  | csrrs rd csr rs1 => exact Laws.EncodesItsRow.csrrs rd csr rs1
  | csrrc rd csr rs1 => exact Laws.EncodesItsRow.csrrc rd csr rs1
  | csrrwi rd csr uimm => exact Laws.EncodesItsRow.csrrwi rd csr uimm
  | csrrsi rd csr uimm => exact Laws.EncodesItsRow.csrrsi rd csr uimm
  | csrrci rd csr uimm => exact Laws.EncodesItsRow.csrrci rd csr uimm

theorem opcodeField_masked (w : InstrWord) : opcodeField (w &&& rowMask) = opcodeField w := by
  rw [opcodeField, BitVec.extractLsb'_and]
  exact BitVec.and_allOnes

theorem funct3Field_masked (w : InstrWord) : funct3Field (w &&& rowMask) = funct3Field w := by
  rw [funct3Field, BitVec.extractLsb'_and]
  exact BitVec.and_allOnes

/-- A word with the masked bits of a format word has its opcode and funct3, so it is one with its own other fields. -/
theorem iTypeWord_of_masked {w : InstrWord} {funct3 : BitVec 3}
    (hw : w &&& rowMask = iTypeWord 0#12 0#5 funct3 0#5) :
    iTypeWord (csrField w) (srcField w) funct3 (rdField w) = w := by
  have hop := (opcodeField_masked w).symm.trans (congrArg opcodeField hw)
  have hf3 := (funct3Field_masked w).symm.trans (congrArg funct3Field hw)
  rw [opcodeField_iTypeWord] at hop
  rw [funct3Field_iTypeWord] at hf3
  exact hf3 ▸ iTypeWord_fields hop

theorem decodeWord_of_encode_eq {w : InstrWord} {i : Instr} (hw : encode i = w) : decodeWord w = .ok i :=
  hw ▸ decodeWord_encode i

theorem rowMatch_mem (i : Instr) : rowMatch i ∈
    [0x00001073#32, 0x00002073#32, 0x00003073#32, 0x00005073#32, 0x00006073#32, 0x00007073#32] := by
  cases i <;> simp [rowMatch]

/-! ### The obligations -/

/-- Settles O1: the bytes of a word put together are the word, and the fields of an encoding are its operands. -/
theorem decodeOfEncodeIsTheInstruction : Obligations.DecodeOfEncodeIsTheInstruction :=
  fun i rest _ => decode_bytesOfWord_append (decodeWord_encode i) rest

/-- Settles O2: a word is its fields, and decoding keeps them or fixes them. -/
theorem encodeOfDecodedWordIsTheWord : Obligations.EncodeOfDecodedWordIsTheWord :=
  fun _ _ => encode_of_decodeWord

/-- Settles O3: the masked bits are opcode and funct3, so each match value makes the word the encoding of its fields;
and a word that decodes is an encoding, whose masked value is that of its row. -/
theorem decodingFollowsMaskAndMatch : Obligations.DecodingFollowsMaskAndMatch := by
  intro w
  refine ⟨fun hw => ?csrrw, fun hw => ?csrrs, fun hw => ?csrrc, fun hw => ?csrrwi, fun hw => ?csrrsi,
    fun hw => ?csrrci, fun hw => ?other⟩
  case other =>
    cases hd : decodeWord w with
    | error e => exact ⟨e, rfl⟩
    | ok i =>
      have masked : w &&& rowMask = rowMatch i := encode_of_decodeWord hd ▸ encode_masked i
      exact absurd (masked ▸ rowMatch_mem i) hw
  case csrrw | csrrs | csrrc | csrrwi | csrrsi | csrrci => exact decodeWord_of_encode_eq (iTypeWord_of_masked hw)

/-- Settles O4: each word is run through the decoder. -/
theorem writtenOutWordsDecode : Obligations.WrittenOutWordsDecode := by
  unfold Obligations.WrittenOutWordsDecode
  decide

/-- Settles O5: an encoding is its fields shifted into place. -/
theorem pseudoInstructionWords : Obligations.PseudoInstructionWords := by
  intro rd rs1 csr uimm
  exact ⟨iTypeWord_eq_shifts .., iTypeWord_eq_shifts .., iTypeWord_eq_shifts .., iTypeWord_eq_shifts ..,
    iTypeWord_eq_shifts .., iTypeWord_eq_shifts .., iTypeWord_eq_shifts ..⟩

end Sys2Proof.Machine
end

section
/-! PROOFS. The statements about fetch and step: a placed word is fetched (20_memory.md R32), what a step runs, refuses
and stops at, and how it moves pc (10_state.md R13, 20_memory.md R33). -/

namespace Sys2Proof.Machine

variable {xlen : Nat}

/-! ### The four addresses of an instruction -/

theorem fetchAddresses_eq_map (pc : Word xlen) :
    fetchAddresses pc = (List.range 4).map fun j => (pc + BitVec.ofNat xlen j).toNat := by
  simp [fetchAddresses, List.range_succ]

/-- The address space has room for the four bytes of an instruction. -/
theorem four_lt_of_xlenOk (hx : xlenOk xlen = true) : 4 < 2 ^ xlen := by
  have five_le : 5 ≤ xlen := by simpa [xlenOk] using hx
  calc 4 < 2 ^ 5 := by decide
    _ ≤ 2 ^ xlen := Nat.pow_le_pow_right (by decide) five_le

theorem fetchAddresses_nodup (hx : xlenOk xlen = true) (pc : Word xlen) : (fetchAddresses pc).Nodup := by
  rw [fetchAddresses_eq_map]
  refine List.nodup_range.map_on fun j hj k hk hjk => ?_
  have room := four_lt_of_xlenOk hx
  simp only [List.mem_range] at hj hk
  have offsets : BitVec.ofNat xlen j = BitVec.ofNat xlen k := add_left_cancel (BitVec.eq_of_toNat_eq hjk)
  simpa [Nat.mod_eq_of_lt (show j < 2 ^ xlen by omega), Nat.mod_eq_of_lt (show k < 2 ^ xlen by omega)] using
    congrArg BitVec.toNat offsets

/-! ### Placing bytes and reading them back -/

/-- Place bytes at addresses, one after the other. -/
def placeBytes (h : Hart xlen) (bytes : List (Nat × Byte)) : Hart xlen :=
  bytes.foldl (fun h ab => placeByte h ab.1 ab.2) h

theorem placeBytes_cons (h : Hart xlen) (ab : Nat × Byte) (bytes : List (Nat × Byte)) :
    placeBytes h (ab :: bytes) = placeBytes (placeByte h ab.1 ab.2) bytes := rfl

theorem placeWord_eq_placeBytes (h : Hart xlen) (w : InstrWord) :
    placeWord h w = placeBytes h ((fetchAddresses h.pc).zip (bytesOfWord w)) := rfl

theorem readByte_placeBytes_of_notMem {a : Nat} {bytes : List (Nat × Byte)} (ha : a ∉ bytes.map Prod.fst)
    (h : Hart xlen) : readByte (placeBytes h bytes) a = readByte h a := by
  induction bytes generalizing h with
  | nil => rfl
  | cons ab bytes ih =>
    obtain ⟨hne, hrest⟩ := List.ne_and_not_mem_of_not_mem_cons ha
    rw [placeBytes_cons, ih hrest, readByte_placeByte_ne _ _ hne]

/-- A byte placed at an address of its own is read back. -/
theorem readByte_placeBytes_of_mem {a : Nat} {b : Byte} {bytes : List (Nat × Byte)}
    (hn : (bytes.map Prod.fst).Nodup) (hab : (a, b) ∈ bytes) (h : Hart xlen) :
    readByte (placeBytes h bytes) a = some b := by
  induction bytes generalizing h with
  | nil => cases hab
  | cons cd bytes ih =>
    obtain ⟨hnot, hrest⟩ := List.nodup_cons.1 hn
    rw [placeBytes_cons]
    rcases List.mem_cons.1 hab with rfl | hmem
    · rw [readByte_placeBytes_of_notMem hnot, readByte_placeByte_self]
    · exact ih hrest hmem _

theorem readByte_placeWord (hx : xlenOk xlen = true) {h : Hart xlen} {w : InstrWord} {a : Nat} {b : Byte}
    (hab : (a, b) ∈ (fetchAddresses h.pc).zip (bytesOfWord w)) : readByte (placeWord h w) a = some b := by
  have nodup : (((fetchAddresses h.pc).zip (bytesOfWord w)).map Prod.fst).Nodup := fetchAddresses_nodup hx h.pc
  rw [placeWord_eq_placeBytes, readByte_placeBytes_of_mem nodup hab]

theorem fetch_placeWord (hx : xlenOk xlen = true) {h : Hart xlen} (ha : pcAligned h.platform h.pc = true)
    (w : InstrWord) : fetch (placeWord h w) = .ok (bytesOfWord w) := by
  refine fetch_of_bytes (h := placeWord h w) ha (readByte_placeWord hx ?_) (readByte_placeWord hx ?_)
    (readByte_placeWord hx ?_) (readByte_placeWord hx ?_) <;>
  simp [fetchAddresses, bytesOfWord]

theorem withFetchWord_toNat (s : State) (w : InstrWord) :
    s.withFetchWord 32 w.toNat = { xlen := s.xlen, hart := placeWord s.hart w } := by
  rw [State.withFetchWord, Nat.mod_eq_of_lt w.isLt, BitVec.ofNat_toNat, BitVec.setWidth_eq]

/-! ### What a step does, by what is fetched -/

theorem step_of_fetch_error {h : Hart xlen} {f : Fault} (hf : fetch h = .error f) :
    step { xlen := xlen, hart := h } = .fault f := by
  simp only [step, hf]

theorem step_of_misaligned {h : Hart xlen} (ha : pcAligned h.platform h.pc = false) :
    step { xlen := xlen, hart := h } = .fault (.fetchMisaligned h.pc.toNat) :=
  step_of_fetch_error (by simp [fetch, ha])

theorem pcAligned_of_step_next {h : Hart xlen} {s' : State} (hs : step { xlen := xlen, hart := h } = .next s') :
    pcAligned h.platform h.pc = true := by
  by_contra ha
  rw [step_of_misaligned (Bool.eq_false_of_not_eq_true ha)] at hs
  cases hs

section
variable {h : Hart xlen} {b0 b1 b2 b3 : Byte} (ha : pcAligned h.platform h.pc = true)
  (h0 : readByte h h.pc.toNat = some b0) (h1 : readByte h (h.pc + 1#xlen).toNat = some b1)
  (h2 : readByte h (h.pc + 2#xlen).toNat = some b2) (h3 : readByte h (h.pc + 3#xlen).toNat = some b3)
include ha h0 h1 h2 h3

theorem step_of_decodeWord {i : Instr} (hd : decodeWord (wordOfBytes b0 b1 b2 b3) = .ok i) :
    step { xlen := xlen, hart := h } = afterInstruction (exec i { xlen := xlen, hart := h }) := by
  simp only [step, fetch_of_bytes ha h0 h1 h2 h3, decode, hd]

theorem step_of_decodeWord_error {e : DecodeError} (hd : decodeWord (wordOfBytes b0 b1 b2 b3) = .error e) :
    step { xlen := xlen, hart := h } = .refused (.notZicsr e) := by
  simp only [step, fetch_of_bytes ha h0 h1 h2 h3, decode, hd]

end

theorem decodeWord_of_not_system {w : InstrWord} (hop : opcodeField w ≠ systemOpcode) :
    decodeWord w = .error (.notSystemOpcode w) := by
  simp [decodeWord, hop]

theorem decodeWord_of_not_csr_funct3 {w : InstrWord} (hop : opcodeField w = systemOpcode)
    (hf3 : funct3Field w = 0b000#3 ∨ funct3Field w = 0b100#3) : decodeWord w = .error (.notCsrFunct3 w) := by
  rcases hf3 with hf3 | hf3 <;> simp [decodeWord, hop, hf3]

/-- Reading bytes stops at the first address without a byte. -/
theorem readBytes_of_first_absent (h : Hart xlen) {addresses : List Nat} {k : Nat} (hk : k < addresses.length)
    (hbefore : ∀ j, (hj : j < k) → (readByte h addresses[j]).isSome = true)
    (habsent : readByte h addresses[k] = none) : readBytes h addresses = .error (.fetchNothing addresses[k]) := by
  induction addresses generalizing k with
  | nil => cases hk
  | cons a rest ih =>
    cases k with
    | zero => simp only [List.getElem_cons_zero] at habsent ⊢; simp only [readBytes, habsent]
    | succ k =>
      obtain ⟨b, hb⟩ := Option.isSome_iff_exists.1 (hbefore 0 (Nat.succ_pos k))
      have stops := ih (Nat.lt_of_succ_lt_succ hk) (fun j hj => hbefore (j + 1) (Nat.succ_lt_succ hj)) habsent
      simp only [List.getElem_cons_zero] at hb
      simp only [readBytes, hb, stops, List.getElem_cons_succ]

/-! ### The next pc is aligned as this one is -/

theorem toNat_add_four_mod (hx : xlenOk xlen = true) {m : Nat} (hm : m ∣ 4) (pc : Word xlen) :
    (pc + 4#xlen).toNat % m = pc.toNat % m := by
  have five_le : 5 ≤ xlen := by simpa [xlenOk] using hx
  have dvd : m ∣ 2 ^ xlen := hm.trans (pow_dvd_pow 2 (show 2 ≤ xlen by omega))
  rw [BitVec.toNat_add, Nat.mod_mod_of_dvd _ dvd, BitVec.toNat_ofNat, Nat.mod_eq_of_lt (four_lt_of_xlenOk hx),
    Nat.add_mod, Nat.mod_eq_zero_of_dvd hm, Nat.add_zero, Nat.mod_mod]

theorem pcAligned_add_four (hx : xlenOk xlen = true) {p : Platform xlen} {pc : Word xlen}
    (ha : pcAligned p pc = true) : pcAligned p (pc + 4#xlen) = true := by
  unfold pcAligned at ha ⊢
  cases hi : p.ialign with
  | bits16 => simpa only [hi, toNat_add_four_mod hx (show 2 ∣ 4 by decide)] using ha
  | bits32 => simpa only [hi, toNat_add_four_mod hx (dvd_refl 4)] using ha

/-! ### The obligations -/

/-- Settles O6: the four addresses are distinct, so each byte placed is read back. -/
theorem wordPlacedAtPcIsFetched : Obligations.WordPlacedAtPcIsFetched := by
  intro s w hx ha
  rw [withFetchWord_toNat]
  refine ⟨readByte_placeWord hx ?_, readByte_placeWord hx ?_, fetch_placeWord hx ha w,
    fun i hi => decode_bytesOfWord_append hi []⟩ <;>
  simp [fetchAddresses, bytesOfWord]

/-- Settles O7: fetch answers the four bytes, and the step passes the moment after what the instruction answers. -/
theorem stepRunsTheDecodedInstruction : Obligations.StepRunsTheDecodedInstruction := by
  intro n h b0 b1 b2 b3 i ha h0 h1 h2 h3 hd
  have runs := step_of_decodeWord ha h0 h1 h2 h3 hd
  exact ⟨runs, fun h' hg => runs.trans (congrArg afterInstruction hg),
    fun r hr => runs.trans (congrArg afterInstruction hr)⟩

/-- Settles O8: the decoder answers an error, and the step refuses with it. -/
theorem stepRefusesWordsThatAreNoCsrInstruction : Obligations.StepRefusesWordsThatAreNoCsrInstruction := by
  intro n h b0 b1 b2 b3 ha h0 h1 h2 h3
  exact ⟨fun hop hf3 => step_of_decodeWord_error ha h0 h1 h2 h3 (decodeWord_of_not_csr_funct3 hop hf3),
    fun hop => step_of_decodeWord_error ha h0 h1 h2 h3 (decodeWord_of_not_system hop)⟩

/-- Settles O9: fetch checks the alignment first, then reads the bytes in the order of their addresses. -/
theorem fetchStopsOnMisalignedPcOrAbsentByte : Obligations.FetchStopsOnMisalignedPcOrAbsentByte := by
  intro n h
  refine ⟨step_of_misaligned, fun k hk ha hbefore habsent => step_of_fetch_error ?_⟩
  rw [fetch, if_pos ha, fetchAddresses_eq_map]
  simpa using readBytes_of_first_absent h (addresses := (List.range 4).map fun j => (h.pc + BitVec.ofNat n j).toNat)
    (k := k) (by simpa using hk) (by simpa using hbefore) (by simpa using habsent)

/-- Settles O47: without a trap layer only an instruction goes on, and 4 is a multiple of either alignment. -/
theorem stepAdvancesPcByFourAndKeepsItAligned : Obligations.StepAdvancesPcByFourAndKeepsItAligned := by
  intro n h h' hx ht hs
  obtain ⟨i, k, hk, hcases⟩ := step_next_cases hs
  obtain rfl : h' = passMoment k := by simpa using hk
  rcases hcases with ⟨-, rfl⟩ | ⟨saves, target, htrap, -, -⟩
  · rw [passMoment_pc, passMoment_platform, instrResult_pc, instrResult_platform]
    exact ⟨rfl, pcAligned_add_four hx (pcAligned_of_step_next hs)⟩
  · rw [ht] at htrap
    cases htrap

end Sys2Proof.Machine
end

section
/-! PROOFS. The invariant of a run (20_memory.md R36, R46), at reset and along every step; the registers (10_state.md
R10, R11); what raising does and when it happens (60_exceptions.md). -/

namespace Sys2Proof.Machine

variable {xlen : Nat}

/-! ### The history of accesses -/

/-- The event is an access that this hart makes at this moment. -/
structure MadeNow (h : Hart xlen) (e : Event) : Prop where
  index : e.index = h.cs.moment
  own : e.hart = h.platform.hartId
  marked : e.strong = h.platform.strong.contains e.csr

theorem madeNow_inputEvent (h : Hart xlen) (csr : CsrAddr) : MadeNow h (inputEvent h csr) := ⟨rfl, rfl, rfl⟩

theorem madeNow_outputEvent (h : Hart xlen) (csr : CsrAddr) : MadeNow h (outputEvent h csr) := ⟨rfl, rfl, rfl⟩

/-- A step that adds accesses made now to the history, and then lets the moment pass, keeps the history's invariant. -/
theorem historyInv_passMoment {h h' : Hart xlen} {new : List Event} (hinv : HistoryInv h)
    (hp : h'.platform = h.platform) (hm : h'.cs.moment = h.cs.moment) (he : h'.events = h.events ++ new)
    (hnew : ∀ e ∈ new, MadeNow h e) : HistoryInv (passMoment h') := by
  have old_or_now {e : Event} (hmem : e ∈ (passMoment h').events) : e ∈ h.events ∨ MadeNow h e := by
    rw [passMoment_events, he] at hmem
    exact (List.mem_append.1 hmem).imp_right (hnew e)
  constructor
  case ordered =>
    rw [passMoment_events, he]
    refine List.pairwise_append.2 ⟨hinv.ordered, List.pairwise_of_forall_mem_list fun e hemem f hfmem => ?_,
      fun e hemem f hfmem => ?_⟩
    · rw [(hnew e hemem).index, (hnew f hfmem).index]
    · rw [(hnew f hfmem).index]
      exact (hinv.past e hemem).le
  case past =>
    intro e hmem
    rw [passMoment_moment, hm]
    rcases old_or_now hmem with hold | hnow
    · exact Nat.lt_succ_of_lt (hinv.past e hold)
    · exact hnow.index ▸ Nat.lt_succ_self _
  case own =>
    intro e hmem
    rw [passMoment_platform, hp]
    exact (old_or_now hmem).elim (hinv.own e) MadeNow.own
  case marked =>
    intro e hmem
    rw [passMoment_platform, hp]
    exact (old_or_now hmem).elim (hinv.marked e) MadeNow.marked

/-- The accesses that an instruction adds to the history. -/
def newEvents (i : Instr) (h : Hart xlen) : List Event :=
  (if readsCsr i then [inputEvent h (instrCsr i)] else []) ++ (if writesCsr i then [outputEvent h (instrCsr i)] else [])

theorem instrResult_events_eq (i : Instr) (h : Hart xlen) :
    (instrResult i h).events = h.events ++ newEvents i h :=
  (instrResult_events i h).trans (List.append_assoc ..)

theorem madeNow_of_mem_newEvents {i : Instr} {h : Hart xlen} {e : Event} (he : e ∈ newEvents i h) : MadeNow h e := by
  rcases List.mem_append.1 he with hin | hout
  · obtain ⟨-, rfl⟩ : readsCsr i = true ∧ e = inputEvent h (instrCsr i) := by simpa using hin
    exact madeNow_inputEvent h (instrCsr i)
  · obtain ⟨-, rfl⟩ : writesCsr i = true ∧ e = outputEvent h (instrCsr i) := by simpa using hout
    exact madeNow_outputEvent h (instrCsr i)

/-! ### The invariant of a run -/

theorem wf_instrResult_cs (i : Instr) {h : Hart xlen} (hw : h.cs.wf = true) : (instrResult i h).cs.wf = true := by
  rw [instrResult_cs]
  have base : (if readsCsr i then csrReadEffect h.platform (instrCsr i) h.cs else h.cs).wf = true := by
    split
    · exact wf_csrReadEffect _ _ hw
    · exact hw
  refine wf_csrImplicit _ _ _ ?_
  split
  · exact wf_csrWriteEffect _ _ _ _ base
  · exact base

theorem memoryWf_congr {h h' : Hart xlen} (hm : h'.mem = h.mem) : Memory.wf h' = Memory.wf h := by
  rw [Memory.wf, hm, Memory.wf]

/-- What keeps the invariant over a step: parameters and memory stay, the cells stay canonical, and the history grows by
accesses made now. -/
theorem hartInv_passMoment {h h' : Hart xlen} {new : List Event} (hinv : HartInv h) (hp : h'.platform = h.platform)
    (hmem : h'.mem = h.mem) (hcs : h'.cs.wf = true) (hm : h'.cs.moment = h.cs.moment)
    (he : h'.events = h.events ++ new) (hnew : ∀ e ∈ new, MadeNow h e) : HartInv (passMoment h') where
  platformWf := by rw [passMoment_platform, hp]; exact hinv.platformWf
  memory := (memoryWf_congr hmem).trans hinv.memory
  cells := hcs
  history := historyInv_passMoment hinv.history hp hm he hnew

theorem fixture_addressesOk (xlen : Nat) : (fixture xlen).addressesOk = true := by
  have addresses : (fixture xlen).csrs.map (·.addr) = [0x340#12, 0x7C1#12, 0xB02#12, 0xC02#12, 0x7C0#12, 0x7C2#12] :=
    rfl
  rw [Platform.addressesOk, addresses]
  decide

/-- The fixture's narrow CSRs and fields have 8 bits, so it is well formed from XLEN 8 up. -/
theorem fixture_wellFormed (hx : 8 ≤ xlen) : (fixture xlen).wellFormed = true := by
  simp only [Platform.wellFormed, fixture_addressesOk, xlenOk, Bool.and_true, Bool.and_eq_true, decide_eq_true_eq]
  have inside : 1 ≤ xlen ∧ 3 < xlen ∧ 7 < xlen ∧ 5 ≤ xlen := by omega
  simp [hx, inside, fixture, plainCsr, bulbCsr, fieldCsr, increment, CsrDesc.widthOk, CsrDesc.shownOk, CsrDesc.fieldsOk,
    CsrDesc.effectsOk, CsrDesc.spares, bitwiseIn, mentionsCell, cellBval, cellLit, cellFval, cellHitW, cellHitA,
    cellHitB]

theorem hartInv_reset (hx : 8 ≤ xlen) : HartInv (Hart.reset xlen) where
  platformWf := fixture_wellFormed hx
  memory := memoryWf_reset xlen
  cells := rfl
  history := ⟨List.Pairwise.nil, nofun, nofun, nofun⟩

/-! ### Raising -/

theorem exec_of_raises_terminal {i : Instr} {h : Hart xlen} (ht : h.platform.trap = .terminal) (hr : Raises i h) :
    exec i { xlen := xlen, hart := h } = .fault (.illegalInstruction h.pc.toNat (encode i)) := by
  simp only [Raises, raiseIllegal, ht, liftHart_fault] at hr
  exact hr

theorem goes_of_raises_handler {i : Instr} {h : Hart xlen} {saves : List (Assign xlen)} {target : CsrExpr xlen}
    (ht : h.platform.trap = .handler saves target) (hr : Raises i h) : Goes i h (trapped i h saves target) := by
  simp only [Raises, raiseIllegal, ht, liftHart_next] at hr
  exact hr

theorem raises_of_missing {i : Instr} {h : Hart xlen} (hm : csrExists h.platform (instrCsr i) h.cs = false) :
    Raises i h :=
  raises_of_not_allowed (by simp [accessAllowed, hm])

theorem raises_of_not_privOk {i : Instr} {h : Hart xlen} (hm : csrPrivOk h.platform (instrCsr i) h.cs = false) :
    Raises i h :=
  raises_of_not_allowed (by simp [accessAllowed, hm])

/-! ### The obligations -/

/-- Settles O45, by the two things a step that goes on can do: an instruction adds its accesses to the history, a raise
into a trap layer adds none. -/
theorem everyStepKeepsTheInvariant : Obligations.EveryStepKeepsTheInvariant := by
  rintro ⟨n, h⟩ s' hinv hs
  obtain ⟨i, h', rfl, hcases⟩ := step_next_cases hs
  rcases hcases with ⟨-, rfl⟩ | ⟨saves, target, -, -, rfl⟩
  · exact hartInv_passMoment hinv (instrResult_platform i h) (instrResult_mem i h) (wf_instrResult_cs i hinv.cells)
      (instrResult_moment i h) (instrResult_events_eq i h) fun e => madeNow_of_mem_newEvents
  · exact hartInv_passMoment hinv (trapped_platform h i saves target) (trapped_mem h i saves target)
      (wf_applyEffect _ saves hinv.cells) (trapped_moment h i saves target) (List.append_nil _).symm nofun

/-- Settles O44: the fixture is well formed from XLEN 8 up, and everything else is empty. -/
theorem resetMeetsTheInvariant : Obligations.ResetMeetsTheInvariant :=
  ⟨hartInv_reset (by decide), fun _ => hartInv_reset⟩

/-- Settles O10: each part is what a register reads after a write. -/
theorem registerZeroReadsZeroAndDiscardsWrites : Obligations.RegisterZeroReadsZeroAndDiscardsWrites := by
  intro n h r q v
  refine ⟨readX_zero h, rfl, fun hr => ?_, fun hq => ?_⟩
  · rw [readX_writeX, if_pos ⟨rfl, hr⟩]
  · rw [readX_writeX, if_neg fun ⟨hqr, _⟩ => hq hqr]

/-- Settles O26: the access check asks first whether the CSR exists. -/
theorem missingCsrRaises : Obligations.MissingCsrRaises :=
  fun _ _ _ => raises_of_missing

/-- Settles O27: the access check asks for the privilege whatever the instruction does. -/
theorem failedPrivilegeCheckRaises : Obligations.FailedPrivilegeCheckRaises :=
  fun _ _ _ => raises_of_not_privOk

/-- Settles O28: an access that is not allowed raises, and raising is a fault or the trap layer's entry. -/
theorem raiseHandsOverToTakeTrap : Obligations.RaiseHandsOverToTakeTrap := by
  intro n h i ha
  have raises : Raises i h := raises_of_not_allowed ha
  exact ⟨fun ht => exec_of_raises_terminal ht raises, fun saves target ht =>
    ⟨trapped i h saves target, goes_of_raises_handler ht raises, rfl, rfl, rfl, rfl, rfl, rfl⟩⟩

/-- Settles O29, by whether the access is allowed and, where it is not, by the trap layer. -/
theorem anInstructionGoesOnOrRaisesIllegal : Obligations.AnInstructionGoesOnOrRaisesIllegal := by
  intro n h i
  cases ha : accessAllowed h (instrCsr i) (writesCsr i) with
  | true => exact .inl ⟨_, goes_of_allowed ha⟩
  | false =>
    have raises : Raises i h := raises_of_not_allowed ha
    cases ht : h.platform.trap with
    | terminal => exact .inr ⟨rfl, rfl, exec_of_raises_terminal ht raises⟩
    | handler saves target => exact .inl ⟨_, goes_of_raises_handler ht raises⟩

end Sys2Proof.Machine
end

section
/-! PROOFS. The laws of a CSR file (10_state.md R15, R16, R22) and the values that instructions leave in CSRs: plain
ones (R20), counters (42_csr_access_rules.md R84 to R86), under masks (R87, R88) and between instructions
(60_exceptions.md R129). -/

namespace Sys2Proof.Machine

variable {xlen : Nat}

/-! ### The laws of a CSR whose description is known (10_state.md R16) -/

section
variable {p : Platform xlen} {a : CsrAddr} {d : CsrDesc xlen} {k b : Nat}

theorem csrWritable_of_csrAt (hd : csrAt p a = some d) (cs : CS xlen) : csrWritable p a cs = writableIn d cs := by
  simp [csrWritable, hd]

/-- No bit at or above the CSR's width is writable or read as one. -/
theorem getLsbD_valueIn_of_width_le (hb : d.width ≤ b) (cs : CS xlen) : (valueIn d cs).getLsbD b = false := by
  simp [valueIn, getLsbD_lowOnes, hb]

theorem getLsbD_writableIn_of_width_le (hb : d.width ≤ b) (cs : CS xlen) : (writableIn d cs).getLsbD b = false := by
  simp [writableIn, getLsbD_lowOnes, hb]

theorem getLsbD_lowOnes_of_writable {cs : CS xlen} (hb : (writableIn d cs).getLsbD b = true) :
    (lowOnes xlen d.width).getLsbD b = true := by
  rw [writableIn, BitVec.getLsbD_and, Bool.and_eq_true] at hb
  exact hb.2

/-- Storing changes the writable bits of the CSR's own cell, and those to what the CSR stores. -/
theorem getLsbD_storeIn_cell (inp : Inputs xlen) (cs : CS xlen) (b : Nat) :
    ((storeIn d inp cs).cell d.cell).getLsbD b =
      if (writableIn d cs).getLsbD b then (evalExpr inp cs d.stored).getLsbD b else (cs.cell d.cell).getLsbD b := by
  rw [storeIn, cell_setCell_self, BitVec.getLsbD_or, BitVec.getLsbD_and, BitVec.getLsbD_and, BitVec.getLsbD_not]
  cases hb : (writableIn d cs).getLsbD b with
  | true => simp
  | false =>
    have inside : (cs.cell d.cell).getLsbD b = true → b < xlen := BitVec.lt_of_getLsbD
    simpa using inside

theorem shownOk_of_wellFormed (hw : p.wellFormed = true) (hd : csrAt p a = some d) : d.shownOk = true := by
  simp only [Platform.wellFormed, Bool.and_eq_true, List.all_eq_true] at hw
  obtain ⟨-, hcsrs⟩ := hw
  obtain ⟨⟨⟨-, hshown⟩, -⟩, -⟩ := hcsrs d (csrAt_mem hd)
  exact hshown

theorem effectsOk_of_wellFormed (hw : p.wellFormed = true) (hd : csrAt p a = some d) : d.effectsOk = true := by
  simp only [Platform.wellFormed, Bool.and_eq_true, List.all_eq_true] at hw
  obtain ⟨-, hcsrs⟩ := hw
  exact (hcsrs d (csrAt_mem hd)).2

/-- An effect of assignments that spare a CSR's value spares its own cell and every cell that it is read from. -/
theorem sparesCell_of_spares {effect : List (Assign xlen)} (he : effect.all d.spares = true)
    (hk : k = d.cell ∨ mentionsCell k d.shown = true) : sparesCell k effect = true := by
  simp only [sparesCell, List.all_eq_true, decide_eq_true_eq] at he ⊢
  rintro act hact rfl
  have spares := he act hact
  simp only [CsrDesc.spares, Bool.and_eq_true, decide_eq_true_eq, Bool.not_eq_true'] at spares
  obtain ⟨hown, hshown⟩ := spares
  rcases hk with hk | hk
  · exact hown hk
  · exact absurd hk (by simp [hshown])

/-- Of the cells a CSR's value is read from, a write whose side effects spare them changes what it stores alone. -/
theorem csrWriteEffect_cell_of_effectsOk (hd : csrAt p a = some d) (he : d.effectsOk = true)
    (hk : k = d.cell ∨ mentionsCell k d.shown = true) (cs : CS xlen) (v t : Word xlen) :
    (csrWriteEffect p a cs v t).cell k = (storeIn d { value := v, touched := t } cs).cell k := by
  simp only [CsrDesc.effectsOk, Bool.and_eq_true, List.all_eq_true (l := d.fields)] at he
  obtain ⟨honWrite, hfields⟩ := he
  rw [csrWriteEffect_of_csrAt hd,
    fieldEffects_cell_of_touched_spare _ fun f hf _ => sparesCell_of_spares (hfields f hf) hk,
    applyEffect_spares _ (sparesCell_of_spares honWrite hk)]

/-- Law L-ro: a bit that is not writable keeps its value under a write. -/
theorem getLsbD_csrPeek_csrWriteEffect_of_not_writable (hw : p.wellFormed = true) {cs : CS xlen}
    (hb : (csrWritable p a cs).getLsbD b = false) (v t : Word xlen) :
    (csrPeek p a (csrWriteEffect p a cs v t)).getLsbD b = (csrPeek p a cs).getLsbD b := by
  cases hd : csrAt p a with
  | none => simp [csrPeek, hd]
  | some d =>
    have he := effectsOk_of_wellFormed hw hd
    rw [csrWritable_of_csrAt hd] at hb
    rw [csrPeek_of_csrAt hd, csrPeek_of_csrAt hd, valueIn, valueIn, BitVec.getLsbD_and, BitVec.getLsbD_and]
    congr 1
    refine getLsbD_evalExpr_congr {} (csrWriteEffect_moment ..) ?_ d.shown (shownOk_of_wellFormed hw hd)
      fun j hj hm => ?_
    · rw [csrWriteEffect_cell_of_effectsOk hd he (.inl rfl), getLsbD_storeIn_cell, hb, if_neg Bool.false_ne_true]
    · rw [csrWriteEffect_cell_of_effectsOk hd he (.inr hm), storeIn_cell_ne _ hj.symm]

/-- Law L-set: a writable bit takes the presented bit, where it is stored as presented and read as stored. -/
theorem getLsbD_csrPeek_csrWriteEffect_of_writable (hw : p.wellFormed = true) (hd : csrAt p a = some d)
    (hshown : d.shown = .cell d.cell) (hstored : d.stored = .value) {cs : CS xlen}
    (hb : (csrWritable p a cs).getLsbD b = true) (v t : Word xlen) :
    (csrPeek p a (csrWriteEffect p a cs v t)).getLsbD b = v.getLsbD b := by
  rw [csrWritable_of_csrAt hd] at hb
  rw [csrPeek_of_csrAt hd, valueIn, hshown, BitVec.getLsbD_and, getLsbD_lowOnes_of_writable hb, Bool.and_true, evalExpr,
    csrWriteEffect_cell_of_effectsOk hd (effectsOk_of_wellFormed hw hd) (.inl rfl), getLsbD_storeIn_cell, hb, hstored]
  rfl

end

/-! ### Set and clear under the writable mask (42_csr_access_rules.md R87, R88) -/

section
variable {h : Hart xlen} {i : Instr} {d : CsrDesc xlen}

theorem csrReadEffect_of_onRead_nil {p : Platform xlen} {a : CsrAddr} (hd : csrAt p a = some d) (hr : d.onRead = [])
    (cs : CS xlen) : csrReadEffect p a cs = cs := by
  rw [csrReadEffect_of_csrAt hd, hr, applyEffect_nil]

/-- A CSR without read side effects, after an instruction that writes it, is what the write made of its old state. -/
theorem csrPeek_instrResult_of_onRead_nil (hd : csrAt h.platform (instrCsr i) = some d) (hr : d.onRead = [])
    (hw : writesCsr i = true) :
    csrPeek (instrResult i h).platform (instrCsr i) (instrResult i h).cs = csrPeek h.platform (instrCsr i)
      (csrWriteEffect h.platform (instrCsr i) h.cs
        (presentedValue (instrOp i) (csrPeek h.platform (instrCsr i) h.cs) (instrOperand h i))
        (touchedMask (instrOp i) (instrOperand h i))) := by
  rw [csrPeek_instrResult_of_writes h hw, csrReadEffect_of_onRead_nil hd hr, ite_self]

section
variable (hwf : h.platform.wellFormed = true) (hd : csrAt h.platform (instrCsr i) = some d) (hr : d.onRead = [])
  (hshown : d.shown = .cell d.cell) (hstored : d.stored = .value) (hw : writesCsr i = true) (b : Nat)
include hwf hd hr hshown hstored hw

/-- The written CSR bit by bit: the presented bit where it is writable, else the old one. -/
theorem getLsbD_csrPeek_instrResult :
    (csrPeek (instrResult i h).platform (instrCsr i) (instrResult i h).cs).getLsbD b =
      if (csrWritable h.platform (instrCsr i) h.cs).getLsbD b then
        (presentedValue (instrOp i) (csrPeek h.platform (instrCsr i) h.cs) (instrOperand h i)).getLsbD b
      else (csrPeek h.platform (instrCsr i) h.cs).getLsbD b := by
  rw [csrPeek_instrResult_of_onRead_nil hd hr hw]
  split
  · next hb => exact getLsbD_csrPeek_csrWriteEffect_of_writable hwf hd hshown hstored hb _ _
  · next hb => exact getLsbD_csrPeek_csrWriteEffect_of_not_writable hwf (Bool.eq_false_of_not_eq_true hb) _ _

theorem getLsbD_csrPeek_instrResult_set (hop : instrOp i = .set) :
    (csrPeek (instrResult i h).platform (instrCsr i) (instrResult i h).cs).getLsbD b =
      if (csrWritable h.platform (instrCsr i) h.cs).getLsbD b ∧ (instrOperand h i).getLsbD b then true
      else (csrPeek h.platform (instrCsr i) h.cs).getLsbD b := by
  rw [getLsbD_csrPeek_instrResult hwf hd hr hshown hstored hw, hop, presentedValue, BitVec.getLsbD_or]
  cases (csrWritable h.platform (instrCsr i) h.cs).getLsbD b <;> cases (instrOperand h i).getLsbD b <;> simp

theorem getLsbD_csrPeek_instrResult_clear (hop : instrOp i = .clear) :
    (csrPeek (instrResult i h).platform (instrCsr i) (instrResult i h).cs).getLsbD b =
      if (csrWritable h.platform (instrCsr i) h.cs).getLsbD b ∧ (instrOperand h i).getLsbD b then false
      else (csrPeek h.platform (instrCsr i) h.cs).getLsbD b := by
  rw [getLsbD_csrPeek_instrResult hwf hd hr hshown hstored hw, hop, presentedValue, BitVec.getLsbD_and,
    BitVec.getLsbD_not]
  cases hcan : (csrWritable h.platform (instrCsr i) h.cs).getLsbD b with
  | false => simp
  | true =>
    have inside : b < xlen := BitVec.lt_of_getLsbD hcan
    cases (instrOperand h i).getLsbD b <;> simp [inside]

end

/-- Where a bit is inside the register, the zero-extended immediate has it if the immediate does. -/
theorem and_getLsbD_immOperand_iff {w : Word xlen} {src : Uimm} {b : Nat} :
    (w.getLsbD b = true ∧ (immOperand xlen src).getLsbD b = true) ↔
      (w.getLsbD b = true ∧ b < 5 ∧ src.getLsbD b = true) := by
  rw [immOperand, BitVec.getLsbD_setWidth, Bool.and_eq_true, decide_eq_true_eq]
  exact ⟨fun ⟨hw, _, hs⟩ => ⟨hw, BitVec.lt_of_getLsbD hs, hs⟩, fun ⟨hw, _, hs⟩ => ⟨hw, BitVec.lt_of_getLsbD hw, hs⟩⟩

theorem getLsbD_immOperand_of_five_le (uimm : Uimm) {b : Nat} (hb : 5 ≤ b) :
    (immOperand xlen uimm).getLsbD b = false := by
  rw [immOperand, BitVec.getLsbD_setWidth, BitVec.getLsbD_of_ge uimm b hb, Bool.and_false]

/-- A set or clear form presents the old bit where its operand has none. -/
theorem getLsbD_presentedValue_of_untouched {op : CsrOp} (hop : op ≠ .write) (old : Word xlen) {operand : Word xlen}
    {b : Nat} (hb : operand.getLsbD b = false) : (presentedValue op old operand).getLsbD b = old.getLsbD b := by
  cases op with
  | write => exact absurd rfl hop
  | set => simp [presentedValue, hb]
  | clear =>
    have inside : old.getLsbD b = true → b < xlen := BitVec.lt_of_getLsbD
    simpa [presentedValue, hb] using inside

end

/-! ### Plain CSRs (10_state.md R20) -/

section
variable {p : Platform xlen} {a : CsrAddr} {cell width : Nat} {mask : Word xlen}

theorem lowOnes_full : lowOnes xlen xlen = BitVec.allOnes xlen := by
  ext b hb
  rw [← BitVec.getLsbD_eq_getElem, getLsbD_lowOnes]
  simp [hb]

theorem csrPeek_plain (hd : csrAt p a = some (plainCsr a cell width mask)) (cs : CS xlen) :
    csrPeek p a cs = cs.cell cell &&& lowOnes xlen width :=
  csrPeek_of_csrAt hd cs

/-- A mask of writable bits inside the width is not cut by the width. -/
theorem and_lowOnes_of_inside (hm : mask &&& ~~~ lowOnes xlen width = 0#xlen) : mask &&& lowOnes xlen width = mask := by
  have parts : mask = (mask &&& lowOnes xlen width) ||| (mask &&& ~~~ lowOnes xlen width) := by
    rw [← BitVec.and_or_distrib_left, BitVec.or_not_self, BitVec.and_allOnes]
  rw [hm, BitVec.or_zero] at parts
  exact parts.symm

theorem storeIn_plain (hm : mask &&& ~~~ lowOnes xlen width = 0#xlen) (inp : Inputs xlen) (cs : CS xlen) :
    (storeIn (plainCsr a cell width mask) inp cs).cell cell = (cs.cell cell &&& ~~~ mask) ||| (inp.value &&& mask) := by
  have writable : writableIn (plainCsr a cell width mask) cs = mask := and_lowOnes_of_inside hm
  rw [storeIn, writable]
  exact cell_setCell_self ..

/-- A write of a plain CSR gives the writable bits the presented value and leaves the others. -/
theorem csrPeek_csrWriteEffect_plain_masked (hd : csrAt p a = some (plainCsr a cell width mask))
    (hm : mask &&& ~~~ lowOnes xlen width = 0#xlen) (cs : CS xlen) (v t : Word xlen) :
    csrPeek p a (csrWriteEffect p a cs v t) = (csrPeek p a cs &&& ~~~ mask) ||| (v &&& mask) := by
  have stored : (csrWriteEffect p a cs v t).cell cell = (cs.cell cell &&& ~~~ mask) ||| (v &&& mask) :=
    (csrWriteEffect_cell_of_effectsOk hd rfl (.inl rfl) cs v t).trans (storeIn_plain hm ..)
  calc csrPeek p a (csrWriteEffect p a cs v t)
      = ((cs.cell cell &&& ~~~ mask) ||| (v &&& mask)) &&& lowOnes xlen width := by rw [csrPeek_plain hd, stored]
    _ = (cs.cell cell &&& ~~~ mask &&& lowOnes xlen width) ||| (v &&& (mask &&& lowOnes xlen width)) := by
      rw [BitVec.and_or_distrib_right, BitVec.and_assoc v]
    _ = (csrPeek p a cs &&& ~~~ mask) ||| (v &&& mask) := by
      rw [and_lowOnes_of_inside hm, BitVec.and_assoc, BitVec.and_comm (~~~ mask), ← BitVec.and_assoc, csrPeek_plain hd]

theorem set_under_mask (old operand mask : Word xlen) :
    (old &&& ~~~ mask) ||| ((old ||| operand) &&& mask) = old ||| (operand &&& mask) := by
  ext b hb
  simp only [BitVec.getElem_or, BitVec.getElem_and, BitVec.getElem_not]
  cases old[b] <;> cases mask[b] <;> simp

theorem clear_under_mask (old operand mask : Word xlen) :
    (old &&& ~~~ mask) ||| ((old &&& ~~~ operand) &&& mask) = old &&& ~~~ (operand &&& mask) := by
  ext b hb
  simp only [BitVec.getElem_or, BitVec.getElem_and, BitVec.getElem_not]
  cases old[b] <;> cases mask[b] <;> simp

end

section
variable {h : Hart xlen} {i : Instr} {cell width : Nat} {mask : Word xlen}

/-- An access to a plain CSR goes on. -/
theorem goes_of_plain (hn : 1 ≤ xlen)
    (hd : csrAt h.platform (instrCsr i) = some (plainCsr (instrCsr i) cell width mask)) :
    Goes i h (instrResult i h) :=
  goes_of_accessible (accessible_of_csrAt hn hd rfl rfl) (.inr (notReadOnly_of_csrAt hd rfl))

theorem csrPeek_instrResult_plain
    (hd : csrAt h.platform (instrCsr i) = some (plainCsr (instrCsr i) cell width mask))
    (hm : mask &&& ~~~ lowOnes xlen width = 0#xlen) (hw : writesCsr i = true) :
    csrPeek (instrResult i h).platform (instrCsr i) (instrResult i h).cs =
      (csrPeek h.platform (instrCsr i) h.cs &&& ~~~ mask) |||
        (presentedValue (instrOp i) (csrPeek h.platform (instrCsr i) h.cs) (instrOperand h i) &&& mask) :=
  (csrPeek_instrResult_of_onRead_nil hd rfl hw).trans (csrPeek_csrWriteEffect_plain_masked hd hm ..)

theorem csrPeek_instrResult_plain_full
    (hd : csrAt h.platform (instrCsr i) = some (plainCsr (instrCsr i) cell xlen (BitVec.allOnes xlen)))
    (hw : writesCsr i = true) :
    csrPeek (instrResult i h).platform (instrCsr i) (instrResult i h).cs =
      presentedValue (instrOp i) (csrPeek h.platform (instrCsr i) h.cs) (instrOperand h i) :=
  (csrPeek_instrResult_of_onRead_nil hd rfl hw).trans (csrPeek_csrWriteEffect_plain hd ..)

/-- A set or clear form leaves the bits that its operand does not have. -/
theorem getLsbD_csrPeek_instrResult_plain_of_untouched {b : Nat}
    (hd : csrAt h.platform (instrCsr i) = some (plainCsr (instrCsr i) cell xlen (BitVec.allOnes xlen)))
    (hop : instrOp i ≠ .write) (hs : instrSrc i ≠ 0#5) (hb : (instrOperand h i).getLsbD b = false) :
    (csrPeek (instrResult i h).platform (instrCsr i) (instrResult i h).cs).getLsbD b =
      (csrPeek h.platform (instrCsr i) h.cs).getLsbD b := by
  rw [csrPeek_instrResult_plain_full hd (writesCsr_iff.2 (.inr hs)), getLsbD_presentedValue_of_untouched hop _ hb]

/-- An empty written set skips no assignment. -/
theorem csrImplicit_nil (p : Platform xlen) (cs : CS xlen) (info : InstrWord) :
    csrImplicit p cs [] info = applyEffect { instr := info } p.implicits cs := by
  simp [csrImplicit, backs]

/-- A counter that an instruction reads and does not write is incremented by it. -/
theorem csrPeek_instrResult_counter {k : Nat}
    (hd : csrAt h.platform (instrCsr i) = some (plainCsr (instrCsr i) k xlen (BitVec.allOnes xlen)))
    (hi : h.platform.implicits = [increment k]) (hw : writesCsr i = false) :
    csrPeek (instrResult i h).platform (instrCsr i) (instrResult i h).cs =
      csrPeek h.platform (instrCsr i) h.cs + 1#xlen := by
  rw [instrResult_platform, instrResult_cs_of_not_writes hw, csrReadEffect_of_onRead_nil hd rfl, csrImplicit_nil, hi,
    csrPeek_plain hd, csrPeek_plain hd, lowOnes_full, BitVec.and_allOnes, BitVec.and_allOnes]
  exact cell_setCell_self ..

end

/-! ### Between two instructions (60_exceptions.md R129) -/

/-- A value that does not come from outside stays as the moment passes. -/
theorem csrPeek_passMoment {h : Hart xlen} {a : CsrAddr} {d : CsrDesc xlen} (hd : csrAt h.platform a = some d)
    (hl : looksOutside d.shown = false) :
    csrPeek (passMoment h).platform a (passMoment h).cs = csrPeek h.platform a h.cs := by
  rw [passMoment_platform, csrPeek_of_csrAt hd, csrPeek_of_csrAt hd, valueIn, valueIn,
    evalExpr_moment {} (passMoment_cell h) d.shown hl]

/-- A bit that is not driven from outside is the cell's. -/
theorem getLsbD_evalExpr_drivenFrom (inp : Inputs xlen) (cs : CS xlen) (k signal : Nat) {mask : Word xlen} {b : Nat}
    (hb : mask.getLsbD b = false) :
    (evalExpr inp cs (drivenFrom k signal mask)).getLsbD b = (cs.cell k).getLsbD b := by
  have inside : (cs.cell k).getLsbD b = true → b < xlen := BitVec.lt_of_getLsbD
  simpa [drivenFrom, evalExpr, hb] using inside

/-! ### A CSR of a standard's shape (10_state.md R22) -/

theorem standardShape_iff {d : CsrDesc xlen} : d.standardShape = true ↔ d.onRead = [] ∧ d.fields = [] := by
  simp [CsrDesc.standardShape]

/-- Storing looks at the mask only where what is stored does. -/
theorem storeIn_touched (inp : Inputs xlen) (t : Word xlen) (cs : CS xlen) {d : CsrDesc xlen}
    (hl : looksTouched d.stored = false) : storeIn d { inp with touched := t } cs = storeIn d inp cs := by
  rw [storeIn, evalExpr_touched inp t cs d.stored hl, storeIn]

/-- A write that looks at no mask is the write under the mask of all zeros. -/
theorem csrWriteEffect_of_not_looksTouched {p : Platform xlen} {a : CsrAddr} {d : CsrDesc xlen}
    (hd : csrAt p a = some d) (hf : d.fields = []) (hs : looksTouched d.stored = false)
    (hw : ∀ act ∈ d.onWrite, looksTouched act.expr = false) (cs : CS xlen) (v t : Word xlen) :
    csrWriteEffect p a cs v t = csrWriteEffect p a cs v 0#xlen := by
  rw [csrWriteEffect_zero_mask hd, csrWriteEffect_of_csrAt hd, hf, fieldEffects_nil,
    ← storeIn_touched { value := v } t cs hs, ← applyEffect_touched { value := v } t hw]

/-! ### The obligations -/

/-- Settles O33: the value and the writable bits are both cut to the width. -/
theorem bitsAboveTheWidthReadZero : Obligations.BitsAboveTheWidthReadZero := by
  intro n p a d cs b hd hb
  rw [csrPeek_of_csrAt hd, csrWritable_of_csrAt hd]
  exact ⟨getLsbD_valueIn_of_width_le hb cs, getLsbD_writableIn_of_width_le hb cs⟩

/-- Settles O34: of the cells a CSR is read from a write changes its own alone, and there the writable bits. -/
theorem writeLeavesBitsThatAreNotWritable : Obligations.WriteLeavesBitsThatAreNotWritable :=
  fun _ _ _ _ v t _ hw hb => getLsbD_csrPeek_csrWriteEffect_of_not_writable hw hb v t

/-- Settles O35: what is stored in a writable bit is the presented bit, and no side effect assigns the cell. -/
theorem writeStoresInWritableBits : Obligations.WriteStoresInWritableBits :=
  fun _ _ _ _ _ v t _ hw hd hshown hstored hb =>
    getLsbD_csrPeek_csrWriteEffect_of_writable hw hd hshown hstored hb v t

/-- Settles O18: a plain CSR takes the presented value under its mask. -/
theorem plainCsrValueAfterAWrite : Obligations.PlainCsrValueAfterAWrite := by
  intro n h csr cell width mask hd hm hn old rd src
  refine ⟨⟨_, goes_of_plain hn hd, csrPeek_instrResult_plain hd hm rfl⟩,
    ⟨_, goes_of_plain hn hd, csrPeek_instrResult_plain hd hm rfl⟩, fun hs => ?_⟩
  have writes : ∀ {i}, instrSrc i = src → writesCsr i = true := fun hi => writesCsr_iff.2 (.inr (hi ▸ hs))
  refine ⟨⟨_, goes_of_plain hn hd, ?csrrs⟩, ⟨_, goes_of_plain hn hd, ?csrrc⟩, ⟨_, goes_of_plain hn hd, ?csrrsi⟩,
    ⟨_, goes_of_plain hn hd, ?csrrci⟩⟩
  case csrrs | csrrsi => exact (csrPeek_instrResult_plain hd hm (writes rfl)).trans (set_under_mask ..)
  case csrrc | csrrci => exact (csrPeek_instrResult_plain hd hm (writes rfl)).trans (clear_under_mask ..)

/-- Settles O19, bit by bit: where the bit is writable it takes the presented one, elsewhere it stays. -/
theorem setAndClearChangeExactlyTheWritableMaskBits : Obligations.SetAndClearChangeExactlyTheWritableMaskBits := by
  intro n h csr d rd src b hwf hd hr hshown hstored ha hro hs old can
  have set_bits : ∀ i, instrCsr i = csr → instrSrc i = src → instrOp i = .set → ∃ h', Goes i h h' ∧
      (csrPeek h'.platform csr h'.cs).getLsbD b = if can ∧ (instrOperand h i).getLsbD b then true else old := by
    rintro i rfl rfl hop
    exact ⟨_, goes_of_accessible ha (.inr hro),
      getLsbD_csrPeek_instrResult_set hwf hd hr hshown hstored (writesCsr_iff.2 (.inr hs)) b hop⟩
  have clear_bits : ∀ i, instrCsr i = csr → instrSrc i = src → instrOp i = .clear → ∃ h', Goes i h h' ∧
      (csrPeek h'.platform csr h'.cs).getLsbD b = if can ∧ (instrOperand h i).getLsbD b then false else old := by
    rintro i rfl rfl hop
    exact ⟨_, goes_of_accessible ha (.inr hro),
      getLsbD_csrPeek_instrResult_clear hwf hd hr hshown hstored (writesCsr_iff.2 (.inr hs)) b hop⟩
  obtain ⟨s', hsGoes, hsBits⟩ := set_bits (.csrrsi rd csr src) rfl rfl rfl
  obtain ⟨c', hcGoes, hcBits⟩ := clear_bits (.csrrci rd csr src) rfl rfl rfl
  exact ⟨set_bits (.csrrs rd csr src) rfl rfl rfl, clear_bits (.csrrc rd csr src) rfl rfl rfl,
    ⟨s', hsGoes, hsBits.trans (if_congr and_getLsbD_immOperand_iff rfl rfl)⟩,
    ⟨c', hcGoes, hcBits.trans (if_congr and_getLsbD_immOperand_iff rfl rfl)⟩⟩

/-- Settles O31: a read alone leaves the increment to be made, a write puts the cell in the set it skips. -/
theorem counterReadsBeforeAndWriteReplacesIncrement : Obligations.CounterReadsBeforeAndWriteReplacesIncrement := by
  intro n h csr k rd rs1 hn hd hi hrd
  exact ⟨⟨_, goes_of_plain hn hd, readX_instrResult_rd h rfl hrd, csrPeek_instrResult_counter hd hi rfl⟩,
    ⟨_, goes_of_plain hn hd, readX_instrResult_rd h (readsCsr_iff.2 (.inr hrd)) hrd,
      csrPeek_instrResult_plain_full hd rfl⟩,
    ⟨_, goes_of_plain hn hd, csrPeek_instrResult_plain_full hd rfl⟩⟩

/-- Settles O32: the reader takes the value the writer left, and the passing of the moment changes no plain CSR. -/
theorem valueWrittenIsReadByTheNextInstruction : Obligations.ValueWrittenIsReadByTheNextInstruction := by
  rintro n h _ cell width mask i j hd hm hn rfl hw hj hr hrd
  have hd' : csrAt (instrResult i h).platform (instrCsr i) = some (plainCsr (instrCsr i) cell width mask) := by
    rw [instrResult_platform, hd]
  refine ⟨instrResult i h, instrResult j (passMoment (instrResult i h)), goes_of_plain hn hd,
    goes_of_plain (h := passMoment (instrResult i h)) hn (hj ▸ hd'), ?_⟩
  rw [readX_instrResult_rd _ hr hrd, hj, csrPeek_passMoment hd' rfl, csrPeek_instrResult_plain hd hm hw]

/-- Settles O37: no read side effect is there to happen, and neither storing nor the side effects look at the mask. -/
theorem standardCsrReadsAndMasksHaveNoSideEffect : Obligations.StandardCsrReadsAndMasksHaveNoSideEffect := by
  intro n h csr d rd hd hshape
  obtain ⟨hread, hfields⟩ := standardShape_iff.1 hshape
  refine ⟨fun ha i hi => ?_, fun hs hw cs v t t' => ?_⟩
  · obtain ⟨hop, -, rfl, hs⟩ := setOrClear_of_mem hi
    have noWrite : writesCsr i = false := writesCsr_eq_false_iff.2 ⟨hop, hs⟩
    refine ⟨_, goes_of_accessible ha (.inl noWrite), ?_⟩
    rw [instrResult_cs_of_not_writes noWrite, csrReadEffect_of_onRead_nil hd hread]
  · rw [csrWriteEffect_of_not_looksTouched hd hfields hs hw,
      csrWriteEffect_of_not_looksTouched hd hfields hs hw cs v t']

/-- Settles O41: the zero-extended immediate has the immediate's value, and no bit from 5 up. -/
theorem immediateIsZeroExtended : Obligations.ImmediateIsZeroExtended := by
  intro n h csr cell rd uimm hx hd
  have five_le : 5 ≤ n := by simpa [xlenOk] using hx
  have hn : 1 ≤ n := by omega
  refine ⟨⟨_, goes_of_plain hn hd, ?csrrwi⟩, fun hs b hb => ⟨⟨_, goes_of_plain hn hd, ?csrrsi⟩,
    ⟨_, goes_of_plain hn hd, ?csrrci⟩⟩⟩
  case csrrwi =>
    exact (congrArg BitVec.toNat (csrPeek_instrResult_plain_full hd rfl)).trans (BitVec.toNat_setWidth_of_le five_le)
  case csrrsi =>
    exact getLsbD_csrPeek_instrResult_plain_of_untouched (i := .csrrsi rd csr uimm) hd nofun hs
      (getLsbD_immOperand_of_five_le uimm hb)
  case csrrci =>
    exact getLsbD_csrPeek_instrResult_plain_of_untouched (i := .csrrci rd csr uimm) hd nofun hs
      (getLsbD_immOperand_of_five_le uimm hb)

/-- Settles O48: the moment is looked at by the outside signals alone, and they drive the bits of the mask alone. -/
theorem betweenInstructionsOnlyDrivenBitsChange : Obligations.BetweenInstructionsOnlyDrivenBitsChange := by
  intro n h a d hd
  refine ⟨csrPeek_passMoment hd, fun k signal mask b hshown hb => ?_⟩
  rw [passMoment_platform, csrPeek_of_csrAt hd, csrPeek_of_csrAt hd, valueIn, valueIn, BitVec.getLsbD_and,
    BitVec.getLsbD_and, hshown, getLsbD_evalExpr_drivenFrom _ _ _ _ hb, getLsbD_evalExpr_drivenFrom _ _ _ _ hb,
    passMoment_cell]

end Sys2Proof.Machine
end

section
/-! PROOFS. What instructions leave alone and do not look at: the frames (10_state.md R12, 20_memory.md R31,
42_csr_access_rules.md R77), the integer registers under the immediate forms, and how a CSR is written where an
instruction does not write it (R76). -/

namespace Sys2Proof.Machine

variable {xlen : Nat}

/-! ### The cells that an instruction leaves alone -/

section
variable {i : Instr} {h : Hart xlen} {d : CsrDesc xlen} {k : Nat}

theorem readBase_cell_of_read_spares (hd : csrAt h.platform (instrCsr i) = some d)
    (hr : readsCsr i = true → sparesCell k d.onRead = true) : (readBase i h).cell k = h.cs.cell k := by
  cases hreads : readsCsr i with
  | false => rw [readBase_of_not_reads hreads]
  | true => exact readBase_spares hd (hr hreads)

/-- A cell stays that no access which the instruction makes assigns, nor the implicit update. -/
theorem instrResult_cell_of_spares (hd : csrAt h.platform (instrCsr i) = some d)
    (hr : readsCsr i = true → sparesCell k d.onRead = true)
    (hw : writesCsr i = true →
      d.cell ≠ k ∧ sparesCell k d.onWrite = true ∧ ∀ f ∈ d.fields, sparesCell k f.effect = true)
    (hi : sparesCell k h.platform.implicits = true) : (instrResult i h).cs.cell k = h.cs.cell k := by
  rw [← readBase_cell_of_read_spares hd hr]
  cases hwrites : writesCsr i with
  | false => exact instrResult_cell_of_not_writes hi hwrites
  | true =>
    obtain ⟨hcell, honWrite, hfields⟩ := hw hwrites
    exact instrResult_cell_of_write_spares hd hi hcell honWrite hfields

end

/-! ### Other integer registers -/

/-- The hart with other integer registers. -/
abbrev withRegisters (h : Hart xlen) (x : Vector (Word xlen) 32) : Hart xlen := { h with x := x }

section
variable {i : Instr} {h : Hart xlen} {x : Vector (Word xlen) 32}

/-- An instruction whose operand is the same on other registers does the same to the CSR file. -/
theorem instrResult_cs_withRegisters (ho : instrOperand (withRegisters h x) i = instrOperand h i) :
    (instrResult i (withRegisters h x)).cs = (instrResult i h).cs := by
  rw [instrResult_cs, instrResult_cs, ho]

theorem instrResult_events_withRegisters :
    (instrResult i (withRegisters h x)).events = (instrResult i h).events := by
  rw [instrResult_events, instrResult_events]
  rfl

theorem readX_instrResult_rd_withRegisters (hr : readsCsr i = true) :
    readX (instrResult i (withRegisters h x)) (instrRd i) = readX (instrResult i h) (instrRd i) := by
  by_cases hrd : instrRd i = 0#5
  · rw [hrd, readX_zero, readX_zero]
  · rw [readX_instrResult_rd _ hr hrd, readX_instrResult_rd _ hr hrd]

theorem instrResult_x_of_not_reads (hr : readsCsr i = false) : (instrResult i h).x = h.x := by
  rw [instrResult_x, hr, if_neg Bool.false_ne_true]

/-- On other integer registers an instruction whose operand is none of them does the same, but for those it leaves. -/
theorem goes_withRegisters (ho : instrOperand (withRegisters h x) i = instrOperand h i)
    (ha : accessAllowed h (instrCsr i) (writesCsr i) = true) :
    ∃ h' k', Goes i h h' ∧ Goes i (withRegisters h x) k' ∧ k'.cs = h'.cs ∧ k'.pc = h'.pc ∧ k'.events = h'.events ∧
      (readsCsr i = true → readX k' (instrRd i) = readX h' (instrRd i)) ∧
      (readsCsr i = false → k'.x = x ∧ h'.x = h.x) :=
  ⟨instrResult i h, instrResult i (withRegisters h x), goes_of_allowed ha, goes_of_allowed (h := withRegisters h x) ha,
    instrResult_cs_withRegisters ho, (instrResult_pc i (withRegisters h x)).trans (instrResult_pc i h).symm,
    instrResult_events_withRegisters, readX_instrResult_rd_withRegisters,
    fun hr => ⟨instrResult_x_of_not_reads hr, instrResult_x_of_not_reads hr⟩⟩

end

/-! ### Another way of writing on the platform -/

/-- How a CSR is written: its write and field side effects, what it stores, its writable bits, and whether it is
read-only. -/
structure WriteSide (xlen : Nat) where
  onWrite : List (Assign xlen)
  fields : List (FieldEffect xlen)
  stored : CsrExpr xlen
  writableBits : CsrExpr xlen
  readOnly : Bool

/-- The description with another way of writing; how the CSR is found and read stays. -/
def WriteSide.on (ws : WriteSide xlen) (d : CsrDesc xlen) : CsrDesc xlen :=
  { d with onWrite := ws.onWrite, fields := ws.fields, stored := ws.stored, writableBits := ws.writableBits,
           readOnly := ws.readOnly }

/-- A change of the entries at an address that keeps their address changes the one that is found there. -/
theorem csrAt_changeCsr_self (p : Platform xlen) (a : CsrAddr) {f : CsrDesc xlen → CsrDesc xlen}
    (hf : ∀ d, (f d).addr = d.addr) : csrAt (changeCsr p a f) a = (csrAt p a).map f := by
  have same_addr : ((fun d : CsrDesc xlen => decide (d.addr = a)) ∘ fun d => if d.addr = a then f d else d) =
      fun d => decide (d.addr = a) := by
    funext d
    simp only [Function.comp]
    split
    · rw [hf]
    · rfl
  simp only [csrAt, changeCsr, List.find?_map, same_addr]
  cases hd : p.csrs.find? fun d => decide (d.addr = a) with
  | none => rfl
  | some d =>
    have addr : d.addr = a := by simpa using List.find?_some hd
    simp [addr]

section
variable (p : Platform xlen) (a : CsrAddr) (ws : WriteSide xlen) (cs : CS xlen)

theorem csrAt_changeCsr_writeSide : csrAt (changeCsr p a ws.on) a = (csrAt p a).map ws.on :=
  csrAt_changeCsr_self p a fun _ => rfl

theorem csrExists_changeCsr_writeSide : csrExists (changeCsr p a ws.on) a cs = csrExists p a cs := by
  unfold csrExists
  rw [csrAt_changeCsr_writeSide]
  cases csrAt p a <;> rfl

theorem csrPrivOk_changeCsr_writeSide : csrPrivOk (changeCsr p a ws.on) a cs = csrPrivOk p a cs := by
  unfold csrPrivOk
  rw [csrAt_changeCsr_writeSide]
  cases csrAt p a <;> rfl

theorem csrPeek_changeCsr_writeSide : csrPeek (changeCsr p a ws.on) a cs = csrPeek p a cs := by
  unfold csrPeek
  rw [csrAt_changeCsr_writeSide]
  cases csrAt p a <;> rfl

theorem csrReadEffect_changeCsr_writeSide : csrReadEffect (changeCsr p a ws.on) a cs = csrReadEffect p a cs := by
  unfold csrReadEffect
  rw [csrAt_changeCsr_writeSide]
  cases csrAt p a <;> rfl

/-- With an empty written set the implicit update looks at no CSR. -/
theorem csrImplicit_changeCsr_nil (f : CsrDesc xlen → CsrDesc xlen) (info : InstrWord) :
    csrImplicit (changeCsr p a f) cs [] info = csrImplicit p cs [] info := by
  rw [csrImplicit_nil, csrImplicit_nil]
  rfl

end

section
variable {i : Instr} {h : Hart xlen}

theorem writeX_onPlatform (h : Hart xlen) (p : Platform xlen) (r : RegNum) (v : Word xlen) :
    writeX (onPlatform h p) r v = onPlatform (writeX h r v) p := by
  unfold writeX
  split <;> rfl

/-- An instruction that does not write reads, and nothing else. -/
theorem instrResult_of_not_writes (hw : writesCsr i = false) : instrResult i h = advancePc (implicitUpdate
    (writeX (afterCsrRead h (instrCsr i)) (instrRd i) (csrPeek h.platform (instrCsr i) h.cs)) [] (encode i)) := by
  have reads : doesRead (instrOp i) (instrRd i) = true := readsCsr_of_setOrClear (writesCsr_eq_false_iff.1 hw).1
  have noWrite : doesWrite (instrOp i) (instrSrc i) = false := hw
  simp [instrResult, accessResult, reads, noWrite, readPhase, writePhase, resultPhase, writtenSet]

/-- An instruction that does not write does the same with any other way of writing its CSR. -/
theorem instrResult_changeCsr_writeSide (hw : writesCsr i = false) (ws : WriteSide xlen) :
    instrResult i (onPlatform h (changeCsr h.platform (instrCsr i) ws.on)) =
      onPlatform (instrResult i h) (changeCsr h.platform (instrCsr i) ws.on) := by
  have read : afterCsrRead (onPlatform h (changeCsr h.platform (instrCsr i) ws.on)) (instrCsr i) =
      onPlatform (afterCsrRead h (instrCsr i)) (changeCsr h.platform (instrCsr i) ws.on) := by
    simp only [afterCsrRead, recordAccess, onPlatform, csrReadEffect_changeCsr_writeSide]
    rfl
  have old : csrPeek (onPlatform h (changeCsr h.platform (instrCsr i) ws.on)).platform (instrCsr i)
      (onPlatform h (changeCsr h.platform (instrCsr i) ws.on)).cs = csrPeek h.platform (instrCsr i) h.cs :=
    csrPeek_changeCsr_writeSide ..
  rw [instrResult_of_not_writes hw, instrResult_of_not_writes hw, read, old, writeX_onPlatform]
  simp only [advancePc, implicitUpdate, onPlatform, writeX_platform, afterCsrRead_platform, csrImplicit_changeCsr_nil]

theorem accessible_changeCsr_writeSide (ha : Accessible h (instrCsr i)) (ws : WriteSide xlen) :
    Accessible (onPlatform h (changeCsr h.platform (instrCsr i) ws.on)) (instrCsr i) :=
  ha.imp (csrExists_changeCsr_writeSide ..).trans (csrPrivOk_changeCsr_writeSide ..).trans

theorem goes_changeCsr_writeSide (hw : writesCsr i = false) (ha : Accessible h (instrCsr i)) (ws : WriteSide xlen) :
    ∃ h', Goes i h h' ∧ Goes i (onPlatform h (changeCsr h.platform (instrCsr i) ws.on))
      (onPlatform h' (changeCsr h.platform (instrCsr i) ws.on)) := by
  have other := goes_of_accessible (accessible_changeCsr_writeSide ha ws) (.inl hw)
  rw [instrResult_changeCsr_writeSide hw ws] at other
  exact ⟨instrResult i h, goes_of_accessible ha (.inl hw), other⟩

end

/-! ### The obligations -/

/-- Settles O42: an access that is allowed has one outcome, and it is read off field by field. -/
theorem instructionsLeaveOtherRegistersAndMemory : Obligations.InstructionsLeaveOtherRegistersAndMemory := by
  intro n h h' i ha hg
  obtain rfl : h' = instrResult i h := goes_unique hg (goes_of_allowed ha)
  refine ⟨fun q hq => ?_, readX_zero _, fun hr q => ?_, readByte_congr (instrResult_mem i h), instrResult_platform i h,
    instrResult_moment i h, instrResult_events_eq i h⟩
  · rw [readX_instrResult, if_neg fun ⟨_, hqrd, _⟩ => hq hqrd]
  · exact readX_congr (instrResult_x_of_not_reads hr) q

/-- Settles O43: beside the implicit update a cell is assigned by the accesses that the instruction makes. -/
theorem instructionsLeaveOtherCells : Obligations.InstructionsLeaveOtherCells := by
  intro n h h' i d k hd ha hg hr hw hi
  obtain rfl : h' = instrResult i h := goes_unique hg (goes_of_allowed ha)
  exact instrResult_cell_of_spares hd hr hw hi

/-- Settles O40: the operand of an immediate form is its immediate. -/
theorem immediateFormsReadNoIntegerRegister : Obligations.ImmediateFormsReadNoIntegerRegister := by
  intro n h x rd csr uimm i hi ha
  simp only [List.mem_cons, List.not_mem_nil, or_false] at hi
  rcases hi with rfl | rfl | rfl
  · exact goes_withRegisters rfl ha
  · exact goes_withRegisters rfl ha
  · exact goes_withRegisters rfl ha

/-- Settles O23: an instruction that does not write is a read alone, which looks at nothing that says how to write. -/
theorem noWriteNoWriteSideEffect : Obligations.NoWriteNoWriteSideEffect :=
  fun _ _ _ effect fields e e' ro hw ha => goes_changeCsr_writeSide hw ha ⟨effect, fields, e, e', ro⟩

end Sys2Proof.Machine
end
